-- ==== Sys2Proof/Word.lean ====
section
/-! DEFINITION. The one value type of the block (00_scope R10): every operand, field and buffer element is a byte. -/

namespace Sys2Proof

/-- `u8` of 00_scope R10: an unsigned 8-bit value. It is also the width `LEN_BITS`, `CMD_BITS` and `CKS_BITS` of
00_scope R7. Lengths, indices and sums are `Nat`s (R10: "unbounded mathematical integers"). -/
abbrev Byte := BitVec 8

end Sys2Proof
end

