-- ==== Sys2Proof/Config.lean ====
section
/-! DEFINITION. The fixed parameters of 00_scope R7, held by name as R8 asks, and the two open parameters of
92_eei_decisions (D17, D23), which no rule of the block reads. -/

namespace Sys2Proof.Config

/-- `LEAD1`: first byte of every frame. -/
def lead1 : Byte := 0xA5#8

/-- `LEAD2`: second byte of every frame. -/
def lead2 : Byte := 0x5E#8

/-- `LEN_BITS`: width of the length field. -/
def lenBits : Nat := 8

/-- `CMD_BITS`: width of the command field. -/
def cmdBits : Nat := 8

/-- `CKS_BITS`: width of the checksum field; a checksum is a sum reduced mod `2 ^ cksBits`. -/
def cksBits : Nat := 8

/-- `MAX_PAYLOAD`: largest payload length. -/
def maxPayload : Nat := 255

/-- `OVERHEAD`: bytes of a frame other than the payload. -/
def overhead : Nat := 5

/-- `MAX_FRAME`, derived. -/
def maxFrame : Nat := maxPayload + overhead

/-- `MIN_SCAN`: the reassembler decides only while it holds at least this many bytes. -/
def minScan : Nat := 7

/-- `DISCARD_HDR_MISS`. -/
def discardHdrMiss : Nat := 1

/-- `DISCARD_CKS_FAIL`. -/
def discardCksFail : Nat := 2

/-- `RX_CAP`: capacity of the receive buffer (41_reassembler R111, decision D6). The buffer is a list and nothing
enforces the bound: that no run passes it is an invariant (`Sys2Proof.Machine.Inv`). -/
def rxCap : Nat := 260

/-- The command tags the source names (30_encoding R63). -/
inductive CmdTag where
  | infor | ruleDown | devRead | devWrite | res | log
  deriving DecidableEq, Repr

/-- `CMD_TAG`, an OPEN parameter (92_eei_decisions D17): no number of any tag is given, so none can be proved here.
For test data only; no rule of the block reads it (30_encoding R63). -/
opaque cmdTag : CmdTag → Byte

/-- `TEXT_ENCODING`, an OPEN parameter (92_eei_decisions D23; 30_encoding R73): the platform's text encoding of RES and
LOG payloads, as the bytes of one character. No rule of the block reads it. -/
opaque textEncoding : Char → List Byte

end Sys2Proof.Config
end

