-- ==== Sys2Proof/Syntax.lean ====
section
/-! DEFINITION. The operations of the block, one constructor per row of spec/opcode_table.json. -/

namespace Sys2Proof

/-- The rows of the opcode table, in its order: the request operations (30_encoding R74), the reserved operation bytes
(R75), the pseudo-operation (R79) and the reassembler's micro-steps (41_reassembler R101). -/
inductive Instr where
  /-- RESET, request `01` (42_control R130). -/
  | reset
  /-- FEED, request `02 bb` (41_reassembler R100). -/
  | feed (b : Byte)
  /-- ENCODE, request `03 cc LL p0 ..` (40_codec R81). -/
  | encode (cmd : Byte) (p : List Byte)
  /-- VALIDATE, request `04 LL c0 ..` (40_codec R84). -/
  | validate (c : List Byte)
  /-- RESERVED, the operation byte `00` (42_control R131). -/
  | reserved
  /-- RESERVED, an operation byte `05` to `FF` (42_control R131; the table's second row of the name). -/
  | reservedHigh (op : Byte)
  /-- FEEDS, the pseudo-operation of 30_encoding R79: no encoding of its own. -/
  | feeds (bs : List Byte)
  /-- SHORT (41_reassembler R102). -/
  | short
  /-- HDR_MISS (41_reassembler R103). -/
  | hdrMiss
  /-- STALL (41_reassembler R104). -/
  | stall
  /-- EMIT (41_reassembler R105). -/
  | emit
  /-- CKFAIL (41_reassembler R106). -/
  | ckfail
  deriving DecidableEq, Repr

end Sys2Proof
end

