-- ==== Sys2Proof/Machine/State.lean ====
section
/-! DEFINITION. The state of one block instance, the host's side of its interface, and the ways a step can stop. -/

namespace Sys2Proof.Machine

/-- The frame record of 00_scope R13; `Frame.wf` (Machine/Operands.lean) says `|payload| = length`. -/
structure Frame where
  lead1 : Byte
  lead2 : Byte
  length : Byte
  command : Byte
  payload : List Byte
  checksum : Byte
  deriving DecidableEq, Repr

/-- What an operation returns to the host (RESET returns nothing, 42_control R130). -/
inductive Result where
  /-- FEED's list of frame records, in stream order (41_reassembler R109). -/
  | frames (fs : List Frame)
  /-- ENCODE's byte sequence, element 0 first on the wire (40_codec R81, 20_memory R45). -/
  | encoded (bytes : List Byte)
  /-- VALIDATE's `ok` bit and recomputed checksum `cs` (40_codec R84). -/
  | validated (ok : Bool) (cs : Byte)
  deriving DecidableEq, Repr

/-- The micro-steps the reassembler's loop chooses among (41_reassembler R101). -/
inductive RxStep where
  | short | hdrMiss | stall | emit | ckfail
  deriving DecidableEq, Repr

/-- The table row a micro-step is. -/
def RxStep.instr : RxStep → Instr
  | .short => .short
  | .hdrMiss => .hdrMiss
  | .stall => .stall
  | .emit => .emit
  | .ckfail => .ckfail

/-- The state type of one block instance (10_state R20): one byte sequence, the receive buffer `rx_buf` of R21. Index 0
is the oldest byte still held. -/
abbrev Block := List Byte

/-- What lies on the host's side of the interface: no state of the block, which reads nothing of it. -/
structure HostSide where
  /-- Request bytes the host has issued and the block has not yet taken (30_encoding R74). DESIGN CHOICE, log entry 2. -/
  requests : List Byte
  /-- The results the host has received, in operation order (70_reset_and_hazards R171). DESIGN CHOICE, log entry 3. -/
  results : List Result
  deriving DecidableEq, Repr

/-- One block instance and the host that uses it. -/
structure State where
  /-- The block's whole state, `rx_buf` (10_state R20, R21). -/
  rxBuf : Block
  /-- The host's side of the interface. -/
  host : HostSide
  deriving DecidableEq, Repr

/-- Right after power-on (10_state R32, 70_reset_and_hazards R160): `rx_buf = []`. Nothing is pending and nothing has
returned: the host's two values are the model's own (log entries 2 and 3). -/
def State.reset : State where
  rxBuf := []
  host := { requests := [], results := [] }

/-- The block has no fault (60_exceptions R142), so there is no reason to name: nothing raises one. -/
inductive Fault
  deriving DecidableEq, Repr

/-- The refusals of 60_exceptions R141, and two of the model. All are safe: the run stops where the spec gives no
behaviour. -/
inductive Refusal where
  /-- Raised by an arm of `exec` whose instruction has no meaning yet; no arm does. Safe. -/
  | notModelled (mnemonic : String)
  /-- `RESERVED_OP`, raised by both RESERVED rows with the operation byte (42_control R131). Safe. -/
  | reservedOp (op : Byte)
  /-- `TRUNCATED_REQUEST`, raised by the fetch of a request that ends inside its operands, with the operation byte and
  the number of request bytes present (30_encoding R76; DEDUCED that the count takes in the operation byte, log entry 8). Safe. -/
  | truncatedRequest (op : Byte) (present : Nat)
  /-- `ENCODE_TOO_LONG`, raised by ENCODE with the payload length (40_codec R82). Safe. -/
  | encodeTooLong (length : Nat)
  /-- `VALIDATE_BAD_LENGTH`, raised by VALIDATE with the candidate length (40_codec R84). Safe. -/
  | validateBadLength (length : Nat)
  /-- Raised by a micro-step that the loop does not choose: another condition of 41_reassembler R101 holds first;
  log entry 6. No step raises it. Safe. -/
  | stepNotChosen (step : RxStep)
  deriving DecidableEq, Repr

end Sys2Proof.Machine
end

