-- ==== Sys2Proof/Machine/Operands.lean ====
section
/-! DEFINITION. The operand forms: indices and slices of byte sequences (00_scope R11), the checksum function (40_codec
R80), the frame record of a byte sequence (00_scope R13) and back, and the valid-frame predicate (30_encoding R66). -/

namespace Sys2Proof.Machine

/-- `s[i]` of 00_scope R11. Outside `0 ≤ i < |s|`, where R11 defines nothing, it answers 0: DESIGN CHOICE, log entry 9;
no rule reads such an index. -/
def byteAt (s : List Byte) (i : Nat) : Byte := s.getD i 0#8

/-- `s[a..b)` of 00_scope R11, half-open (90_conflicts C1). Outside `0 ≤ a ≤ b ≤ |s|`, where R11 defines nothing, it
answers the elements of `s` at the indices from `a` to before `b` that exist, so `[]` when `a > b`: DESIGN CHOICE, log
entry 9; no operation takes such a slice. -/
def slice (s : List Byte) (a b : Nat) : List Byte := (s.drop a).take (b - a)

/-- `sum(s)` of 00_scope R11: over unbounded integers. -/
def sumBytes (s : List Byte) : Nat := (s.map BitVec.toNat).sum

/-- `cks(s)` of 40_codec R80: the sum, reduced once mod 256. -/
def cks (s : List Byte) : Byte := BitVec.ofNat Config.cksBits (sumBytes s)

/-- `frame_of(c)` of 00_scope R13, for a sequence of `c[2] + 5` bytes. -/
def frameOf (c : List Byte) : Frame where
  lead1 := byteAt c 0
  lead2 := byteAt c 1
  length := byteAt c 2
  command := byteAt c 3
  payload := slice c 4 (4 + (byteAt c 2).toNat)
  checksum := byteAt c (4 + (byteAt c 2).toNat)

/-- The bytes of a frame record in wire order (30_encoding R60, 20_memory R45). Of a record that is not `Frame.wf`, which
00_scope R13 does not allow, they are its fields as they are: DESIGN CHOICE, log entry 24; no operation makes one. -/
def Frame.bytes (f : Frame) : List Byte :=
  [f.lead1, f.lead2, f.length, f.command] ++ f.payload ++ [f.checksum]

/-- `|payload| = length` (00_scope R13, 30_encoding R62). -/
abbrev Frame.wf (f : Frame) : Prop := f.payload.length = f.length.toNat

/-- A valid frame (30_encoding R66). -/
abbrev ValidFrame (c : List Byte) : Prop :=
  Config.overhead ≤ c.length ∧ c.length = (byteAt c 2).toNat + Config.overhead ∧
    byteAt c 0 = Config.lead1 ∧ byteAt c 1 = Config.lead2 ∧
    byteAt c (c.length - 1) = cks (slice c 0 (c.length - 1))

end Sys2Proof.Machine
end

