-- ==== Sys2Proof/Machine/Flags.lean ====
section
/-! DEFINITION. The block stores no flag (10_state R28): its conditions are functions of `rx_buf`. They are the
conditions of 41_reassembler R101, the choice among the micro-steps, and the quiescent condition of R110. -/

namespace Sys2Proof.Machine

/-- `|rx_buf| < 7` (41_reassembler R102). -/
def tooShort (buf : List Byte) : Bool := decide (buf.length < Config.minScan)

/-- The sync pattern stands at the front (30_encoding R61). -/
def syncAtFront (buf : List Byte) : Bool :=
  byteAt buf 0 == Config.lead1 && byteAt buf 1 == Config.lead2

/-- `n = zext(rx_buf[2])`. -/
def payloadLen (buf : List Byte) : Nat := (byteAt buf 2).toNat

/-- `n + 5`, an integer that does not wrap (41_reassembler R104, decision D8). -/
def candidateLen (buf : List Byte) : Nat := payloadLen buf + Config.overhead

/-- `n + 5 > |rx_buf|` (41_reassembler R104). -/
def incomplete (buf : List Byte) : Bool := decide (candidateLen buf > buf.length)

/-- The candidate `rx_buf[0..n+5)`. -/
def candidate (buf : List Byte) : List Byte := slice buf 0 (candidateLen buf)

/-- `cks(rx_buf[0..n+4)) = rx_buf[n+4]` (41_reassembler R105). -/
def cksMatches (buf : List Byte) : Bool :=
  cks (slice buf 0 (candidateLen buf - 1)) == byteAt buf (candidateLen buf - 1)

/-- The choice of 41_reassembler R101: the conditions in its order, the first that holds. -/
def selectStep (buf : List Byte) : RxStep :=
  if tooShort buf then .short
  else if !syncAtFront buf then .hdrMiss
  else if incomplete buf then .stall
  else if cksMatches buf then .emit
  else .ckfail

/-- The quiescent condition `Q` of 41_reassembler R110. -/
abbrev Quiescent (buf : List Byte) : Prop :=
  buf.length < Config.minScan ∨
    (byteAt buf 0 = Config.lead1 ∧ byteAt buf 1 = Config.lead2 ∧
      (byteAt buf 2).toNat + Config.overhead > buf.length)

end Sys2Proof.Machine
end

