-- ==== Sys2Proof/Machine/Ops.lean ====
section
/-! DEFINITION. The named operations: the primitives of 00_scope R12 on the block's one byte sequence, and the two ways an
operation reaches the state. The spec gives no exception entry and no return from one (60_exceptions R145, R146), so there
is no such operation here. -/

namespace Sys2Proof.Machine

/-- `BufAppend(b)`: `rx_buf ++ [b]`. -/
def bufAppend (b : Byte) (buf : Block) : Block := buf ++ [b]

/-- `BufDrop(k)`: `rx_buf[k..)`. Outside `1 ≤ k ≤ |rx_buf|`, where R12 defines nothing, it leaves the buffer for `k = 0`
and empties it for `k > |rx_buf|`: DESIGN CHOICE, log entry 22; no micro-step that runs drops so. -/
def bufDrop (k : Nat) (buf : Block) : Block := buf.drop k

/-- `BufClear()`: `[]`. -/
def bufClear : Block := []

/-- `rx_buf <- buf`. -/
def setBuffer (buf : Block) (s : State) : State := { s with rxBuf := buf }

/-- `return v` of an operation that has a result: the host receives it after those before it (70_reset_and_hazards
R171). -/
def returnResult (r : Result) (s : State) : State := { s with host.results := s.host.results ++ [r] }

/-- The micro-step `k` whose effect gives the next state `t`, where the loop chooses it; any other choice of it is no
event of the block (41_reassembler R101; log entry 6). -/
def chosenStep (k : RxStep) (s t : State) : Host.Outcome State Fault Refusal :=
  if selectStep s.rxBuf = k then .next t else .refused (.stepNotChosen k)

end Sys2Proof.Machine
end

