-- ==== Sys2Proof/Machine/Codec.lean ====
section
/-! DEFINITION. The frame codec: ENCODE and VALIDATE (40_codec). Neither reads nor writes `rx_buf` (20_memory R49). -/

namespace Sys2Proof.Machine

/-- The bytes of a frame before its checksum: `[A5, 5E, |p|, cmd] ++ p` (40_codec R81). -/
def frameHead (cmd : Byte) (p : List Byte) : List Byte :=
  [Config.lead1, Config.lead2, BitVec.ofNat 8 p.length, cmd] ++ p

/-- The frame of a command and a payload of at most 255 bytes (40_codec R81). Of a longer payload, whose frame the spec does
not give (R82), the length field is the length mod 256: DESIGN CHOICE, log entry 24; ENCODE refuses it. -/
def encodeFrame (cmd : Byte) (p : List Byte) : List Byte :=
  frameHead cmd p ++ [cks (frameHead cmd p)]

/-- `cs` of 40_codec R84: the checksum of every byte of the candidate but the last. Of the empty sequence, which VALIDATE
refuses, it is `cks []`: DESIGN CHOICE, log entry 24. -/
def candidateCks (c : List Byte) : Byte := cks (slice c 0 (c.length - 1))

/-- `ok` of 40_codec R84: the last byte is that checksum. -/
def candidateOk (c : List Byte) : Bool := candidateCks c == byteAt c (c.length - 1)

/-- ENCODE (40_codec R81); a payload over 255 bytes is refused (R82) before anything runs (60_exceptions R144). -/
def execEncode (cmd : Byte) (p : List Byte) (s : State) : Host.Outcome State Fault Refusal :=
  if p.length > Config.maxPayload then .refused (.encodeTooLong p.length)
  else .next (returnResult (.encoded (encodeFrame cmd p)) s)

/-- VALIDATE (40_codec R84): it tests the checksum alone, neither the lead bytes nor the length field. -/
def execValidate (c : List Byte) (s : State) : Host.Outcome State Fault Refusal :=
  if c.length < Config.overhead ∨ c.length > Config.maxFrame then .refused (.validateBadLength c.length)
  else .next (returnResult (.validated (candidateOk c) (candidateCks c)) s)

end Sys2Proof.Machine
end

