-- ==== Sys2Proof/WellFormed.lean ====
section
/-! DEFINITION. Which terms of `Instr` the request format can express (30_encoding R74, R75; 40_codec R82, R84). -/

namespace Sys2Proof

/-- A payload has at most `MAX_PAYLOAD` bytes (40_codec R81), a candidate 5 to 260 bytes (R84), and the second RESERVED
row holds the operation bytes `05` to `FF` only (30_encoding R75). Every other operand is legal at every value. -/
def Instr.wf : Instr → Bool
  | .reset => true
  | .feed _ => true
  | .encode _ p => decide (p.length ≤ Config.maxPayload)
  | .validate c => decide (Config.overhead ≤ c.length) && decide (c.length ≤ Config.maxFrame)
  | .reserved => true
  | .reservedHigh op => decide (5 ≤ op.toNat)
  | .feeds _ => true
  | .short => true
  | .hdrMiss => true
  | .stall => true
  | .emit => true
  | .ckfail => true

/-- The rows that are ONE request of the request format (30_encoding R74, R75): not the pseudo-operation, which is a
sequence of requests (R79), and not the micro-steps, which no request names (41_reassembler R107). -/
def Instr.isRequest : Instr → Bool
  | .reset => true
  | .feed _ => true
  | .encode _ _ => true
  | .validate _ => true
  | .reserved => true
  | .reservedHigh _ => true
  | .feeds _ => false
  | .short => false
  | .hdrMiss => false
  | .stall => false
  | .emit => false
  | .ckfail => false

end Sys2Proof
end

