-- ==== Sys2Proof/Decode.lean ====
section
/-! DEFINITION. The request decoder (30_encoding R74 to R76), total on any bytes, and after it the encoder. -/

namespace Sys2Proof

/-- What the decoder makes of a request string. -/
inductive Decoded where
  /-- No byte: no request is pending. -/
  | empty
  /-- A request, and the bytes after it, which begin the next request (30_encoding R76). -/
  | ok (i : Instr) (rest : List Byte)
  /-- The string ends before its operands are complete: its operation byte and how many bytes are present. -/
  | truncated (op : Byte) (present : Nat)
  deriving DecidableEq, Repr

/-- The operation byte map of 30_encoding R75. -/
def opReset : Byte := 0x01#8
def opFeed : Byte := 0x02#8
def opEncode : Byte := 0x03#8
def opValidate : Byte := 0x04#8
def opReserved : Byte := 0x00#8

/-- FEED's operand: one byte. -/
def decodeFeed : List Byte → Decoded
  | b :: t => .ok (.feed b) t
  | [] => .truncated opFeed 1

/-- ENCODE's operands: `cc LL`, then `LL` payload bytes. -/
def decodeEncode : List Byte → Decoded
  | cc :: ll :: t =>
    if t.length < ll.toNat then .truncated opEncode (3 + t.length)
    else .ok (.encode cc (t.take ll.toNat)) (t.drop ll.toNat)
  | [_] => .truncated opEncode 2
  | [] => .truncated opEncode 1

/-- VALIDATE's operands: `LL`, then `LL + 5` candidate bytes. -/
def decodeValidate : List Byte → Decoded
  | ll :: t =>
    if t.length < ll.toNat + Config.overhead then .truncated opValidate (2 + t.length)
    else .ok (.validate (t.take (ll.toNat + Config.overhead))) (t.drop (ll.toNat + Config.overhead))
  | [] => .truncated opValidate 1

/-- The decoder of request strings (30_encoding R76). A reserved operation byte is a request of its own that takes no
operand; its meaning refuses it (42_control R131). -/
def decode : List Byte → Decoded
  | [] => .empty
  | op :: t =>
    if op = opReset then .ok .reset t
    else if op = opFeed then decodeFeed t
    else if op = opEncode then decodeEncode t
    else if op = opValidate then decodeValidate t
    else if op = opReserved then .ok .reserved t
    else .ok (.reservedHigh op) t

/-- The request string of FEEDS: `02 b0 02 b1 ..` (30_encoding R79). -/
def encodeFeeds : List Byte → List Byte
  | [] => []
  | b :: bs => opFeed :: b :: encodeFeeds bs

/-- The request bytes of a well-formed instruction (30_encoding R74, R78, R79). A micro-step has none: no request names
it (41_reassembler R107). A term that is not well-formed has no request in the format either; here ENCODE over 255 bytes
gets `LL` = length mod 256, VALIDATE outside 5 to 260 bytes `LL` = (length - 5) mod 256, 0 under 5 bytes, each with all its
bytes after it, and `reservedHigh` of a byte under `05` that byte: DESIGN CHOICE, log entry 24; no step encodes. -/
def encode : Instr → List Byte
  | .reset => [opReset]
  | .feed b => [opFeed, b]
  | .encode cmd p => opEncode :: cmd :: BitVec.ofNat 8 p.length :: p
  | .validate c => opValidate :: BitVec.ofNat 8 (c.length - Config.overhead) :: c
  | .reserved => [opReserved]
  | .reservedHigh op => [op]
  | .feeds bs => encodeFeeds bs
  | .short => []
  | .hdrMiss => []
  | .stall => []
  | .emit => []
  | .ckfail => []

/-- How many bytes the request at the front takes when it is complete (30_encoding R76; the table's `length_bytes`). -/
def requestLength (bs : List Byte) : Nat :=
  let op := Machine.byteAt bs 0
  if op = opFeed then 2
  else if op = opEncode then 3 + (Machine.byteAt bs 2).toNat
  else if op = opValidate then 7 + (Machine.byteAt bs 1).toNat
  else 1

/-- The longest request: VALIDATE with `LL = FF`. -/
def maxRequest : Nat := 7 + Config.maxPayload

/-- `k` bytes of a table word, its least significant byte first. -/
def tableBytes : Nat → Nat → List Byte
  | 0, _ => []
  | k + 1, w => BitVec.ofNat 8 w :: tableBytes k (w / 256)

/-- The value of the RXSTEP rows' front word `rx_buf[0] << 8 | rx_buf[1]` that the table fixes: the sync pattern. -/
def syncWord : Nat := Config.lead1.toNat * 256 + Config.lead2.toNat

/-- Is a table word of the RXSTEP format? The micro-step rows fix either no bit at all (SHORT, mask `0000`) or the
16-bit front word `A55E`; every request row fixes at least its operation byte. Log entry 17. -/
def isFrontWord (nbits w : Nat) : Bool := nbits == 0 || (nbits == 16 && w == syncWord)

/-- A table word's bits, those above `nbits` being 0. -/
def tableWord (nbits w : Nat) : Nat := w % 2 ^ nbits

/-- The buffer a RXSTEP word stands for: nothing for no bits; for a front word its high byte, its low byte (the order
of `rx_buf[0] << 8 | rx_buf[1]`) and zeros up to `MIN_SCAN` bytes, the fewest on which the loop decides. -/
def frontBuffer (nbits w : Nat) : List Byte :=
  if nbits = 0 then []
  else BitVec.ofNat 8 (w / 256) :: BitVec.ofNat 8 w :: List.replicate (Config.minScan - 2) 0#8

/-- The request a REQ word stands for: exactly its own bytes, zeros above `nbits`. -/
def tableRequest (nbits w : Nat) : List Byte :=
  let bs := tableBytes maxRequest (tableWord nbits w)
  bs.take (requestLength bs)

/-- The instruction the decoder reads from a table word: the micro-step chosen on the word's buffer for the RXSTEP
format, the decoded request for the REQ format. -/
def decodeTableWord (nbits w : Nat) : Option Instr :=
  if isFrontWord nbits w then some (Machine.selectStep (frontBuffer nbits w)).instr
  else
    match decode (tableRequest nbits w) with
    | .ok i _ => some i
    | .truncated _ _ => none
    | .empty => none

end Sys2Proof
end

