-- ==== Sys2Proof/Machine/Control.lean ====
section
/-! DEFINITION. The control operations: RESET and the reserved operation bytes (42_control). -/

namespace Sys2Proof.Machine

/-- RESET (42_control R130): empties `rx_buf` and returns no result. -/
def execReset (s : State) : Host.Outcome State Fault Refusal := .next (setBuffer bufClear s)

/-- The operation byte `00` (42_control R131): `raise Refuse(RESERVED_OP)`, by the request decoder, before anything else
(60_exceptions R144). -/
def execReserved (_s : State) : Host.Outcome State Fault Refusal := .refused (.reservedOp opReserved)

/-- The operation bytes `05` to `FF` (42_control R131): `raise Refuse(RESERVED_OP)`. A term with a byte under `05` is not
well-formed and no request decodes to it; it is refused in the same way: DESIGN CHOICE, log entry 24. -/
def execReservedHigh (op : Byte) (_s : State) : Host.Outcome State Fault Refusal := .refused (.reservedOp op)

end Sys2Proof.Machine
end

