-- ==== Sys2Proof/Machine/Reassembler.lean ====
section
/-! DEFINITION. The receive reassembler: the micro-steps, FEED, and the pseudo-operation FEEDS (41_reassembler,
30_encoding R79). They work on the block's byte sequence; what else a FEED computes is local to it (10_state R25). -/

namespace Sys2Proof.Machine

/-- The effect of HDR_MISS (41_reassembler R103). -/
def dropHdrMiss (buf : Block) : Block := bufDrop Config.discardHdrMiss buf

/-- The effect of EMIT on the buffer (41_reassembler R105): the candidate's bytes leave it. -/
def dropCandidate (buf : Block) : Block := bufDrop (candidateLen buf) buf

/-- The output of EMIT (41_reassembler R105): the candidate's record. -/
def emitted (buf : Block) : Frame := frameOf (candidate buf)

/-- The effect of CKFAIL (41_reassembler R106): the two lead bytes leave the buffer and nothing else. -/
def dropCkfail (buf : Block) : Block := bufDrop Config.discardCksFail buf

/-- `rx_step : rx_buf -> (rx_buf', optional frame)` of 41_reassembler R107; none at its stopping states, SHORT and STALL. -/
def rxStep (buf : Block) : Option (Block × Option Frame) :=
  match selectStep buf with
  | .short => none
  | .hdrMiss => some (dropHdrMiss buf, none)
  | .stall => none
  | .emit => some (dropCandidate buf, some (emitted buf))
  | .ckfail => some (dropCkfail buf, none)

/-- At most `k` passes of the loop of 41_reassembler R100 with its local list `out`, ending at SHORT or STALL: the
returned list and the buffer. -/
def runLoop : Nat → Block → List Frame → List Frame × Block
  | 0, buf, out => (out, buf)
  | k + 1, buf, out =>
    match rxStep buf with
    | none => (out, buf)
    | some (buf', f) => runLoop k buf' (out ++ f.toList)

/-- A whole FEED (41_reassembler R100): the append, `out <- []`, and the loop. Every pass before the last removes a byte
(R112), so as many passes as there are bytes are enough. -/
def feedByte (b : Byte) (buf : Block) : List Frame × Block := runLoop (buf.length + 1) (bufAppend b buf) []

/-- FEEDs in turn: the list each returns, and the buffer (30_encoding R79). -/
def feedBytes : List Byte → Block → List (List Frame) × Block
  | [], buf => ([], buf)
  | b :: bs, buf =>
    match feedByte b buf with
    | (fs, r) =>
      match feedBytes bs r with
      | (fss, r') => (fs :: fss, r')

/-- FEED (41_reassembler R100): atomic for the host (20_memory R48). -/
def execFeed (b : Byte) (s : State) : Host.Outcome State Fault Refusal :=
  match feedByte b s.rxBuf with
  | (fs, r) => .next (returnResult (.frames fs) (setBuffer r s))

/-- FEEDS (30_encoding R79): its FEEDs in turn, their results concatenated; `FEEDS []` is no operation, so it does nothing
and returns nothing (log entry 19). -/
def execFeeds (bs : List Byte) (s : State) : Host.Outcome State Fault Refusal :=
  match bs with
  | [] => .next s
  | b :: bs' =>
    match feedBytes (b :: bs') s.rxBuf with
    | (fss, r) => .next (returnResult (.frames fss.flatten) (setBuffer r s))

/-- SHORT (41_reassembler R102), where the loop chooses it: no effect, no output. -/
def execShort (s : State) : Host.Outcome State Fault Refusal := chosenStep .short s s

/-- HDR_MISS (41_reassembler R103), where the loop chooses it. -/
def execHdrMiss (s : State) : Host.Outcome State Fault Refusal :=
  chosenStep .hdrMiss s (setBuffer (dropHdrMiss s.rxBuf) s)

/-- STALL (41_reassembler R104), where the loop chooses it: no effect, no output. -/
def execStall (s : State) : Host.Outcome State Fault Refusal := chosenStep .stall s s

/-- EMIT (41_reassembler R105), where the loop chooses it. The FEED's list is local to the FEED, so the record a single
EMIT puts out is returned at once: DESIGN CHOICE, log entry 4. -/
def execEmit (s : State) : Host.Outcome State Fault Refusal :=
  chosenStep .emit s (returnResult (.frames [emitted s.rxBuf]) (setBuffer (dropCandidate s.rxBuf) s))

/-- CKFAIL (41_reassembler R106), where the loop chooses it. -/
def execCkfail (s : State) : Host.Outcome State Fault Refusal :=
  chosenStep .ckfail s (setBuffer (dropCkfail s.rxBuf) s)

end Sys2Proof.Machine
end

