-- ==== Sys2Proof/Machine/Dispatch.lean ====
section
/-! DEFINITION. One arm per row of the opcode table; the meanings stand in Codec, Control and Reassembler. -/

namespace Sys2Proof.Machine

def exec (i : Instr) (s : State) : Host.Outcome State Fault Refusal :=
  match i with
  | .reset => Sys2Proof.Machine.execReset s
  | .feed b => Sys2Proof.Machine.execFeed b s
  | .encode cmd p => Sys2Proof.Machine.execEncode cmd p s
  | .validate c => Sys2Proof.Machine.execValidate c s
  | .reserved => Sys2Proof.Machine.execReserved s
  | .reservedHigh op => Sys2Proof.Machine.execReservedHigh op s
  | .feeds bs => Sys2Proof.Machine.execFeeds bs s
  | .short => Sys2Proof.Machine.execShort s
  | .hdrMiss => Sys2Proof.Machine.execHdrMiss s
  | .stall => Sys2Proof.Machine.execStall s
  | .emit => Sys2Proof.Machine.execEmit s
  | .ckfail => Sys2Proof.Machine.execCkfail s

end Sys2Proof.Machine
end

