-- ==== Sys2Proof/Machine/Fetch.lean ====
section
/-! DEFINITION. What the block does next: a micro-step of its loop, or the host's next request. -/

namespace Sys2Proof.Machine

/-- What a step finds to run. -/
inductive Fetched where
  /-- The instruction, and the state with the request's bytes taken. -/
  | run (i : Instr) (s : State)
  /-- The pending request ends inside its operands. -/
  | refuse (r : Refusal)
  deriving DecidableEq, Repr

/-- The micro-step the front of the buffer chooses (41_reassembler R101). -/
def fetchMicroStep (s : State) : Fetched := .run (selectStep s.rxBuf).instr s

/-- Between operations the buffer is quiescent (10_state R23), and the host's next request comes (30_encoding R76); with
none pending the loop's stopping step holds the state (60_exceptions R153, log entry 5). A buffer that is not quiescent
stands inside a FEED: its next micro-step comes and requests are held (41_reassembler R107, 70_reset_and_hazards R163;
log entries 4 and 7). -/
def fetch (s : State) : Fetched :=
  if Quiescent s.rxBuf then
    match decode s.host.requests with
    | .empty => fetchMicroStep s
    | .ok i rest => .run i { s with host.requests := rest }
    | .truncated op present => .refuse (.truncatedRequest op present)
  else fetchMicroStep s

/-- Place the instruction of a table word where the next step finds it. A front word becomes the buffer; if that buffer is
quiescent (the word of no bits) no request is left to come before its SHORT. A request goes in front of the pending ones;
if the buffer stands inside a FEED it is emptied, so that the request comes next. Log entry 17. -/
def placeTableWord (s : State) (nbits w : Nat) : State :=
  if isFrontWord nbits w then
    let reqs := if Quiescent (frontBuffer nbits w) then [] else s.host.requests
    { s with rxBuf := frontBuffer nbits w, host.requests := reqs }
  else
    let buf := if Quiescent s.rxBuf then s.rxBuf else []
    { s with rxBuf := buf, host.requests := tableRequest nbits w ++ s.host.requests }

end Sys2Proof.Machine
end

