-- ==== Sys2Proof/Machine/Step.lean ====
section
/-! DEFINITION. One step: fetch, then the instruction's meaning. -/

namespace Sys2Proof.Machine

/-- One step: one whole host operation, or one micro-step of the loop (log entry 1). -/
def step (s : State) : Host.Outcome State Fault Refusal :=
  match fetch s with
  | .run i s' => exec i s'
  | .refuse r => .refused r

/-- `s` with the instruction of a table word placed where `step` fetches its next instruction (log entry 17). -/
def State.withFetchWord (s : State) (nbits w : Nat) : State := placeTableWord s nbits w

end Sys2Proof.Machine
end

