-- ==== Sys2Proof/Machine/Payload.lean ====
section
/-! DEFINITION. Reference data: the payload layouts of 30_encoding R68 to R73. The block reads none of them (R64); they
say how a host lays out the payload it gives to ENCODE. -/

namespace Sys2Proof.Machine

/-- A 16-bit value, least significant byte at the lowest offset (20_memory R44; log entry 18). -/
def le16 (v : BitVec 16) : List Byte := [v.extractLsb' 0 8, v.extractLsb' 8 8]

/-- A 32-bit value, least significant byte at the lowest offset. An `f32` is its 32 bits (log entry 18). -/
def le32 (v : BitVec 32) : List Byte :=
  [v.extractLsb' 0 8, v.extractLsb' 8 8, v.extractLsb' 16 8, v.extractLsb' 24 8]

/-- Infor response (30_encoding R68). -/
def inforResponse (hardType version comNumber modelNumber : Byte) (cmdBytes : BitVec 16) : List Byte :=
  [hardType, version, comNumber, modelNumber] ++ le16 cmdBytes

/-- DevRead or DevWrite request (30_encoding R69). -/
def devRequest (comIndex chIndex : Byte) (memoryAddr : BitVec 16) (data : BitVec 32) : List Byte :=
  [comIndex, chIndex] ++ le16 memoryAddr ++ le32 data

/-- DevRead or DevWrite response (30_encoding R70). -/
def devResponse (comIndex chIndex result : Byte) (memoryAddr : BitVec 16) (data : BitVec 32) : List Byte :=
  [comIndex, chIndex, result] ++ le16 memoryAddr ++ le32 data

/-- RuleDown request; `len` is the length of `cmdBuf` (30_encoding R71). For a `cmdBuf` of more than 255 bytes, which
`len:u8` cannot count and for which R71 gives no layout, `len` is the length mod 256 and all of `cmdBuf` follows: DESIGN
CHOICE, log entry 23; no operation uses this layout. -/
def ruleDownRequest (state : Byte) (addr : BitVec 16) (cmdBuf : List Byte) : List Byte :=
  [state] ++ le16 addr ++ [BitVec.ofNat 8 cmdBuf.length] ++ cmdBuf

/-- RuleDown response (30_encoding R72). -/
def ruleDownResponse (status : Byte) : List Byte := [status]

/-- RES or LOG payload: raw text bytes in an encoding the spec does not name (30_encoding R73). -/
def textPayload (t : List Char) : List Byte := t.flatMap Config.textEncoding

end Sys2Proof.Machine
end

