-- ==== Sys2Proof/Safety.lean ====
section
/-! DEFINITION. The terms claims are stated in: the source's loop as a relation, the invariant of the state, and what a
host operation is. -/

namespace Sys2Proof.Machine

/-- The source's loop as 41_reassembler R100 writes it, without a bound on its passes: `Drains buf fs r` says that the
loop started on `buf` returns the records `fs` and leaves `r`. One constructor per micro-step of R101. -/
inductive Drains : Block → List Frame → Block → Prop where
  /-- SHORT: return. -/
  | short {buf : Block} : buf.length < Config.minScan → Drains buf [] buf
  /-- HDR_MISS: `BufDrop(1)`, continue. -/
  | hdrMiss {buf : Block} {fs : List Frame} {r : Block} :
      Config.minScan ≤ buf.length → (byteAt buf 0 ≠ Config.lead1 ∨ byteAt buf 1 ≠ Config.lead2) →
      Drains (buf.drop Config.discardHdrMiss) fs r → Drains buf fs r
  /-- STALL: return. -/
  | stall {buf : Block} : Config.minScan ≤ buf.length → byteAt buf 0 = Config.lead1 → byteAt buf 1 = Config.lead2 →
      (byteAt buf 2).toNat + Config.overhead > buf.length → Drains buf [] buf
  /-- EMIT: the record of the candidate, `BufDrop(n + 5)`, continue. -/
  | emit {buf : Block} {n : Nat} {fs : List Frame} {r : Block} : Config.minScan ≤ buf.length →
      byteAt buf 0 = Config.lead1 → byteAt buf 1 = Config.lead2 → n = (byteAt buf 2).toNat →
      n + Config.overhead ≤ buf.length → cks (slice buf 0 (n + 4)) = byteAt buf (n + 4) →
      Drains (buf.drop (n + Config.overhead)) fs r →
      Drains buf (frameOf (slice buf 0 (n + Config.overhead)) :: fs) r
  /-- CKFAIL: `BufDrop(2)`, continue. -/
  | ckfail {buf : Block} {n : Nat} {fs : List Frame} {r : Block} : Config.minScan ≤ buf.length →
      byteAt buf 0 = Config.lead1 → byteAt buf 1 = Config.lead2 → n = (byteAt buf 2).toNat →
      n + Config.overhead ≤ buf.length → cks (slice buf 0 (n + 4)) ≠ byteAt buf (n + 4) →
      Drains (buf.drop Config.discardCksFail) fs r → Drains buf fs r

/-- What the end of the loop rests on of the values of 00_scope R7 (R8): a pass that goes on removes a byte. -/
structure LoopValues : Prop where
  minScan : 1 ≤ Config.minScan
  discardHdrMiss : 1 ≤ Config.discardHdrMiss
  discardCksFail : 1 ≤ Config.discardCksFail

/-- `g` holds no adjacent pair `A5 5E` (41_reassembler R118, R119). -/
def NoSyncPair (g : List Byte) : Prop :=
  ∀ i : Nat, i + 1 < g.length → ¬(byteAt g i = Config.lead1 ∧ byteAt g (i + 1) = Config.lead2)

/-- The records a result carries. -/
def resultFrames : Result → List Frame
  | .frames fs => fs
  | .encoded _ => []
  | .validated _ _ => []

/-- A record that stands for a valid frame (30_encoding R66, 41_reassembler R120). -/
def GoodFrame (f : Frame) : Prop := f.wf ∧ ValidFrame f.bytes

/-- The records of a list of results, in order (20_memory R52). -/
def returnedFrames (rs : List Result) : List Frame := rs.flatMap resultFrames

/-- The invariant of the state: the buffer never passes `RX_CAP` bytes (41_reassembler R111), and every record the host
has received stands for a valid frame (R120). That the buffer is quiescent between operations (R110) is a second one,
stated beside it. -/
structure Inv (s : State) : Prop where
  bounded : s.rxBuf.length ≤ Config.rxCap
  returnedGood : ∀ f ∈ returnedFrames s.host.results, GoodFrame f

/-- The operations a host issues, with FEEDS (30_encoding R74, R79). -/
def hostIssued : Instr → Bool
  | .reset => true
  | .feed _ => true
  | .encode _ _ => true
  | .validate _ => true
  | .feeds _ => true
  | .reserved => false
  | .reservedHigh _ => false
  | .short => false
  | .hdrMiss => false
  | .stall => false
  | .emit => false
  | .ckfail => false

/-- The bytes an instruction appends to `rx_buf` (10_state R21: only FEED adds to it). -/
def appended : Instr → List Byte
  | .feed b => [b]
  | .feeds bs => bs
  | .reset => []
  | .encode _ _ => []
  | .validate _ => []
  | .reserved => []
  | .reservedHigh _ => []
  | .short => []
  | .hdrMiss => []
  | .stall => []
  | .emit => []
  | .ckfail => []

/-- Operations one after another, each on the state the one before left (20_memory R50). -/
def execSeq : List Instr → State → Host.Outcome State Fault Refusal
  | [], s => .next s
  | i :: is, s =>
    match exec i s with
    | .next t => execSeq is t
    | .fault r => .fault r
    | .refused r => .refused r

end Sys2Proof.Machine
end

