-- ==== Sys2Proof/Certificates/Slice0/Obligations.lean ====
section
/-! DEFINITION. The statements for the provers. Each docstring names the rules of spec/ it formalises, or the section it
rests on and the log entry of any convention of the model it uses. A statement that is true only because of what LEAD1,
LEAD2, MIN_SCAN, DISCARD_HDR_MISS or DISCARD_CKS_FAIL is names the constant (00_scope R8), in its first clause where it
rests on a bound or a value that nothing else in it says. -/

open Sys2Proof Sys2Proof.Machine

/-! Reset and control. -/

/-- 70_reset_and_hazards R160, 10_state R32: the reset state, at power-on and after every RESET. -/
def Obligations.ResetStateIsEmptyBuffer : Prop :=
  State.reset.rxBuf = [] ∧ ∀ s : State, exec .reset s = .next { s with rxBuf := State.reset.rxBuf }

/-- 42_control R130: the request, the effect, no result, and the corner cases of the empty buffer and of two RESETs. -/
def Obligations.ResetEmptiesTheBuffer : Prop :=
  encode .reset = [0x01#8] ∧
    ∀ s : State, ∃ t : State, exec .reset s = .next t ∧ t = { s with rxBuf := [] } ∧
      exec .reset t = .next t ∧ (s.rxBuf = [] → t = s)

/-- 42_control R131: a request whose operation byte is `00` or `05` to `FF` is refused, by both rows of the table and as
the next request of a step, whatever follows the byte. -/
def Obligations.ReservedOperationBytesAreRefused : Prop :=
  ∀ (s : State) (op : Byte), (op = 0x00#8 ∨ 0x05#8 ≤ op) →
    exec .reserved s = .refused (.reservedOp 0x00#8) ∧
    exec (.reservedHigh op) s = .refused (.reservedOp op) ∧
    ∀ rest : List Byte, Quiescent s.rxBuf → s.host.requests = op :: rest → step s = .refused (.reservedOp op)

/-! The codec. -/

/-- 40_codec R80. -/
def Obligations.ChecksumIsTruncatedSum : Prop :=
  cks [] = 0x00#8 ∧ ∀ s : List Byte, (cks s).toNat = (s.map BitVec.toNat).sum % 256 ∧ cks s = s.foldl (· + ·) 0x00#8

/-- 40_codec R81: operands, request, result and state of ENCODE, and its refusal of a longer payload. -/
def Obligations.EncodeReturnsTheFrame : Prop :=
  ∀ (s : State) (cmd : Byte) (p : List Byte),
    if p.length ≤ Config.maxPayload then
      encode (.encode cmd p) = [0x03#8, cmd, BitVec.ofNat 8 p.length] ++ p ∧
      exec (.encode cmd p) s = .next { s with host.results := s.host.results ++ [.encoded
        ([Config.lead1, Config.lead2, BitVec.ofNat 8 p.length, cmd] ++ p ++
          [BitVec.ofNat 8 ((Config.lead1.toNat + Config.lead2.toNat + p.length + cmd.toNat +
            (p.map BitVec.toNat).sum) % 256)])] }
    else exec (.encode cmd p) s = .refused (.encodeTooLong p.length)

/-- 40_codec R82: a longer payload is refused, and no request can ask for one. -/
def Obligations.LongPayloadIsRefusedAndNotExpressible : Prop :=
  ∀ (cmd : Byte) (p : List Byte), Config.maxPayload < p.length →
    (∀ s : State, exec (.encode cmd p) s = .refused (.encodeTooLong p.length)) ∧
    ∀ bs rest : List Byte, decode bs ≠ .ok (.encode cmd p) rest

/-- 30_encoding R60, R65: the layout of a frame, offset by offset, on what ENCODE returns. -/
def Obligations.EncodedFrameHasTheWireLayout : Prop :=
  ∀ (s : State) (cmd : Byte) (p : List Byte), p.length ≤ Config.maxPayload →
    ∃ f : List Byte, exec (.encode cmd p) s = .next { s with host.results := s.host.results ++ [.encoded f] } ∧
      f.length = p.length + Config.overhead ∧
      byteAt f 0 = Config.lead1 ∧ byteAt f 1 = Config.lead2 ∧ (byteAt f 2).toNat = p.length ∧ byteAt f 3 = cmd ∧
      (∀ i : Nat, i < p.length → byteAt f (4 + i) = byteAt p i) ∧
      (byteAt f (4 + p.length)).toNat = ((slice f 0 (4 + p.length)).map BitVec.toNat).sum % 256

/-- 40_codec R85: every ENCODE result is a valid frame, VALIDATE accepts it, and `frame_of` gives its operands back. -/
def Obligations.EncodedFrameValidates : Prop :=
  ∀ (s : State) (cmd : Byte) (p : List Byte), p.length ≤ Config.maxPayload →
    ∃ (f : List Byte) (t : State), exec (.encode cmd p) s = .next t ∧ t.host.results = s.host.results ++ [.encoded f] ∧
      ValidFrame f ∧
      exec (.validate f) t = .next { t with host.results := t.host.results ++ [.validated true
        (cks ([Config.lead1, Config.lead2, BitVec.ofNat 8 p.length, cmd] ++ p))] } ∧
      (frameOf f).length.toNat = p.length ∧ (frameOf f).command = cmd ∧ (frameOf f).payload = p

/-- 40_codec R84: operands, request, result, state and refusal of VALIDATE; no lead byte and no length field is tested. -/
def Obligations.ValidateComparesTheChecksum : Prop :=
  ∀ (s : State) (c : List Byte),
    if Config.overhead ≤ c.length ∧ c.length ≤ Config.maxFrame then
      encode (.validate c) = [0x04#8, BitVec.ofNat 8 (c.length - 5)] ++ c ∧
      (∀ (body : List Byte) (last : Byte), c = body ++ [last] →
        exec (.validate c) s = .next { s with host.results := s.host.results ++
          [.validated (decide ((body.map BitVec.toNat).sum % 256 = last.toNat))
            (BitVec.ofNat 8 ((body.map BitVec.toNat).sum % 256))] })
    else exec (.validate c) s = .refused (.validateBadLength c.length) ∧
      ∀ bs rest : List Byte, decode bs ≠ .ok (.validate c) rest

/-- 40_codec section 4: a change of exactly one byte of a valid frame is always found, an exchange of two bytes before
the checksum never is. -/
def Obligations.ChecksumFindsOneByteMissesExchange : Prop :=
  ∀ (s : State) (c : List Byte), ValidFrame c →
    (∀ (i : Nat) (b : Byte), i < c.length → b ≠ byteAt c i → ∃ cs : Byte,
      exec (.validate (c.set i b)) s = .next { s with host.results := s.host.results ++ [.validated false cs] }) ∧
    ∀ i j : Nat, i < c.length - 1 → j < c.length - 1 → ∃ cs : Byte,
      exec (.validate ((c.set i (byteAt c j)).set j (byteAt c i))) s =
        .next { s with host.results := s.host.results ++ [.validated true cs] }

/-- 20_memory R49: ENCODE and VALIDATE return the same result every time, RESET is idempotent and FEED is not. -/
def Obligations.SideEffectsAndIdempotency : Prop :=
  (∀ (cmd : Byte) (p : List Byte), p.length ≤ Config.maxPayload → ∃ r : Result, ∀ s : State,
    exec (.encode cmd p) s = .next { s with host.results := s.host.results ++ [r] }) ∧
  (∀ c : List Byte, Config.overhead ≤ c.length → c.length ≤ Config.maxFrame → ∃ r : Result, ∀ s : State,
    exec (.validate c) s = .next { s with host.results := s.host.results ++ [r] }) ∧
  (∀ s : State, ∃ t : State, exec .reset s = .next t ∧ execSeq [.reset, .reset] s = .next t) ∧
  ∃ (s t u : State) (b : Byte), execSeq [.feed b] s = .next t ∧ execSeq [.feed b, .feed b] s = .next u ∧
    t.rxBuf ≠ u.rxBuf

/-! The request format. -/

/-- 30_encoding section 3: decode after encode, for every request, every operand and every continuation. -/
def Obligations.RequestsDecodeBack : Prop :=
  ∀ (i : Instr) (rest : List Byte), i.wf = true → i.isRequest = true → decode (encode i ++ rest) = .ok i rest

/-- 30_encoding section 3: what the decoder reads is a well-formed request, and encoding it gives the bytes it took. -/
def Obligations.DecodedRequestsEncodeBack : Prop :=
  ∀ (bs rest : List Byte) (i : Instr), decode bs = .ok i rest →
    i.wf = true ∧ i.isRequest = true ∧ encode i ++ rest = bs

/-- 30_encoding section 3, the request strings of R74 and R78 and of 95_test_vectors written out; and the micro-step of
41_reassembler section 2 that the buffer of 95_test_vectors section 2.3 (V-RX1) chooses. The bytes are numerals on
purpose; the first clauses name the values of 00_scope R7 they stand for. -/
def Obligations.WrittenOutRequestsDecode : Prop :=
  Config.lead1 = 0xA5#8 ∧ Config.lead2 = 0x5E#8 ∧ Config.minScan = 7 ∧
  decode [0x01#8] = .ok .reset [] ∧
  decode [0x02#8, 0xA5#8, 0x01#8] = .ok (.feed 0xA5#8) [0x01#8] ∧
  decode [0x03#8, 0x10#8, 0x02#8, 0x01#8, 0x02#8] = .ok (.encode 0x10#8 [0x01#8, 0x02#8]) [] ∧
  decode [0x04#8, 0x00#8, 0xA5#8, 0x5E#8, 0x00#8, 0x00#8, 0x03#8] =
    .ok (.validate [0xA5#8, 0x5E#8, 0x00#8, 0x00#8, 0x03#8]) [] ∧
  decode [0x00#8] = .ok .reserved [] ∧ decode [0x05#8] = .ok (.reservedHigh 0x05#8) [] ∧
  decode [0xFF#8] = .ok (.reservedHigh 0xFF#8) [] ∧
  selectStep [0xA5#8, 0x5E#8, 0x02#8, 0x10#8, 0x01#8, 0x02#8, 0x18#8] = .emit

/-- 30_encoding section 3, 60_exceptions section 1: a request that ends inside its operands is refused with its operation
byte and the number of bytes present. That the count takes in the operation byte is the model's, log entry 8. -/
def Obligations.TruncatedRequestIsRefused : Prop :=
  ∀ (s : State) (i : Instr) (op : Byte) (part missing : List Byte), i.wf = true → i.isRequest = true →
    encode i = op :: part ++ missing → missing ≠ [] → Quiescent s.rxBuf → s.host.requests = op :: part →
    step s = .refused (.truncatedRequest op (part.length + 1))

/-- 70_reset_and_hazards section 5 with log entry 2: on a quiescent buffer, one step runs one request, its bytes taken. -/
def Obligations.StepRunsTheDecodedRequest : Prop :=
  ∀ (s : State) (i : Instr) (rest : List Byte), Quiescent s.rxBuf → decode s.host.requests = .ok i rest →
    step s = exec i { s with host.requests := rest }

/-- 41_reassembler sections 1 and 2 with log entry 4: on a buffer that is not quiescent, a step is the micro-step the front
of the buffer chooses, whatever requests are pending. -/
def Obligations.StepRunsTheChosenMicroStep : Prop :=
  ∀ s : State, ¬ Quiescent s.rxBuf → step s = exec (selectStep s.rxBuf).instr s ∧
    ∀ (t : State) (reqs : List Byte), step s = .next t →
      step { s with host.requests := reqs } = .next { t with host.requests := reqs }

/-- 60_exceptions section 5 with log entry 5: with no operation, the block holds its state. -/
def Obligations.IdleStepHoldsTheState : Prop :=
  ∀ s : State, Quiescent s.rxBuf → s.host.requests = [] → step s = .next s

/-! The micro-steps. -/

/-- 41_reassembler R101: the five conditions in their order, and what the choice reads. -/
def Obligations.MicroStepIsChosenInOrder : Prop :=
  3 ≤ Config.minScan ∧
  ∀ buf : List Byte,
    (selectStep buf = .short ↔ buf.length < Config.minScan) ∧
    (selectStep buf = .hdrMiss ↔ Config.minScan ≤ buf.length ∧
      (byteAt buf 0 ≠ Config.lead1 ∨ byteAt buf 1 ≠ Config.lead2)) ∧
    (selectStep buf = .stall ↔ Config.minScan ≤ buf.length ∧ byteAt buf 0 = Config.lead1 ∧
      byteAt buf 1 = Config.lead2 ∧ (byteAt buf 2).toNat + Config.overhead > buf.length) ∧
    (selectStep buf = .emit ↔ Config.minScan ≤ buf.length ∧ byteAt buf 0 = Config.lead1 ∧
      byteAt buf 1 = Config.lead2 ∧ (byteAt buf 2).toNat + Config.overhead ≤ buf.length ∧
      cks (slice buf 0 ((byteAt buf 2).toNat + 4)) = byteAt buf ((byteAt buf 2).toNat + 4)) ∧
    (selectStep buf = .ckfail ↔ Config.minScan ≤ buf.length ∧ byteAt buf 0 = Config.lead1 ∧
      byteAt buf 1 = Config.lead2 ∧ (byteAt buf 2).toNat + Config.overhead ≤ buf.length ∧
      cks (slice buf 0 ((byteAt buf 2).toNat + 4)) ≠ byteAt buf ((byteAt buf 2).toNat + 4)) ∧
    (selectStep buf ≠ .short → selectStep buf ≠ .stall →
      ∀ tail : List Byte, selectStep
        (slice buf 0 (max Config.minScan ((byteAt buf 2).toNat + Config.overhead)) ++ tail) = selectStep buf)

/-- 41_reassembler R102: SHORT discards nothing, puts out nothing and stops the loop, and a FEED that ends there at once
returns the empty list, whatever the bytes are. -/
def Obligations.ShortDiscardsNothing : Prop :=
  ∀ s : State, s.rxBuf.length < Config.minScan → exec .short s = .next s ∧
    (∀ (k : Nat) (out : List Frame), runLoop k s.rxBuf out = (out, s.rxBuf)) ∧
    ∀ b : Byte, s.rxBuf.length + 1 < Config.minScan → exec (.feed b) s = .next { s with
      rxBuf := s.rxBuf ++ [b]
      host.results := s.host.results ++ [.frames []] }

/-- 41_reassembler R103, with the buffer written out: only the first byte leaves it, nothing is put out, and the loop goes
on. -/
def Obligations.HdrMissDropsOneByte : Prop :=
  ∀ (s : State) (a b : Byte) (rest : List Byte), s.rxBuf = a :: b :: rest →
    Config.minScan ≤ rest.length + 2 → (a ≠ Config.lead1 ∨ b ≠ Config.lead2) →
    s.rxBuf.drop Config.discardHdrMiss = b :: rest ∧
    exec .hdrMiss s = .next { s with rxBuf := s.rxBuf.drop Config.discardHdrMiss } ∧
    ∀ (k : Nat) (out : List Frame), runLoop (k + 1) s.rxBuf out = runLoop k (s.rxBuf.drop Config.discardHdrMiss) out

/-- 41_reassembler section 2, STALL: it discards nothing, puts out nothing and stops the loop; `n + 5` is an integer from
5 to 260, and at most 253 bytes are missing. That only bytes or a RESET end it is `StallHoldsEverythingBehindIt`. -/
def Obligations.StallDiscardsNothing : Prop :=
  Config.maxFrame - Config.minScan = 253 ∧
  ∀ (s : State) (n : Byte) (rest : List Byte), s.rxBuf = Config.lead1 :: Config.lead2 :: n :: rest →
    Config.minScan ≤ s.rxBuf.length → n.toNat + Config.overhead > s.rxBuf.length →
    exec .stall s = .next s ∧
    (∀ (k : Nat) (out : List Frame), runLoop k s.rxBuf out = (out, s.rxBuf)) ∧
    5 ≤ n.toNat + Config.overhead ∧ n.toNat + Config.overhead ≤ 260 ∧
    n.toNat + Config.overhead - s.rxBuf.length ≤ Config.maxFrame - Config.minScan

/-- 41_reassembler R105, with the candidate written out: exactly its bytes leave the buffer, its record with all six
fields joins the list of the FEED, and the loop goes on. What a single EMIT does with its record is
`EmitAloneReturnsItsRecord`. -/
def Obligations.EmitTakesTheCandidate : Prop :=
  ∀ (s : State) (n cmd ck : Byte) (p rest : List Byte), p.length = n.toNat →
    s.rxBuf = [Config.lead1, Config.lead2, n, cmd] ++ p ++ [ck] ++ rest →
    Config.minScan ≤ s.rxBuf.length → cks ([Config.lead1, Config.lead2, n, cmd] ++ p) = ck →
    (∃ t : State, exec .emit s = .next t ∧ t.rxBuf = rest ∧ t.host.requests = s.host.requests) ∧
    ∀ (k : Nat) (out : List Frame), runLoop (k + 1) s.rxBuf out = runLoop k rest (out ++
      [{ lead1 := Config.lead1, lead2 := Config.lead2, length := n, command := cmd, payload := p, checksum := ck }])

/-- 41_reassembler section 2, EMIT, with log entry 4: as an instruction of its own EMIT returns the record it puts out at
once, a list of one; the FEED's list is local to a FEED. -/
def Obligations.EmitAloneReturnsItsRecord : Prop :=
  ∀ (s : State) (n cmd ck : Byte) (p rest : List Byte), p.length = n.toNat →
    s.rxBuf = [Config.lead1, Config.lead2, n, cmd] ++ p ++ [ck] ++ rest →
    Config.minScan ≤ s.rxBuf.length → cks ([Config.lead1, Config.lead2, n, cmd] ++ p) = ck →
    exec .emit s = .next { s with
      rxBuf := rest
      host.results := s.host.results ++ [.frames
        [{ lead1 := Config.lead1, lead2 := Config.lead2, length := n, command := cmd, payload := p, checksum := ck }]] }

/-- 41_reassembler R106, with the candidate written out: the two lead bytes leave the buffer and nothing else, nothing is
put out, and the loop goes on. -/
def Obligations.CkfailDropsTwoBytes : Prop :=
  ∀ (s : State) (n cmd ck : Byte) (p rest : List Byte), p.length = n.toNat →
    s.rxBuf = [Config.lead1, Config.lead2, n, cmd] ++ p ++ [ck] ++ rest →
    Config.minScan ≤ s.rxBuf.length → cks ([Config.lead1, Config.lead2, n, cmd] ++ p) ≠ ck →
    s.rxBuf.drop Config.discardCksFail = [n, cmd] ++ p ++ [ck] ++ rest ∧
    exec .ckfail s = .next { s with rxBuf := s.rxBuf.drop Config.discardCksFail } ∧
    ∀ (k : Nat) (out : List Frame), runLoop (k + 1) s.rxBuf out = runLoop k (s.rxBuf.drop Config.discardCksFail) out

/-- Log entry 6: a micro-step that the loop does not choose is refused by name. -/
def Obligations.UnchosenMicroStepIsRefused : Prop :=
  ∀ (s : State) (k : RxStep), selectStep s.rxBuf ≠ k → exec k.instr s = .refused (.stepNotChosen k)

/-- 70_reset_and_hazards section 3 with log entries 4 and 7: while the buffer is not quiescent the requests are held; a
step drops the bytes of its micro-step from the front, at least one, and adds at most one record to those returned, and
no operation starts. -/
def Obligations.RequestsAreHeldDuringAFeed : Prop :=
  1 ≤ Config.minScan ∧ 1 ≤ Config.discardHdrMiss ∧ 1 ≤ Config.discardCksFail ∧
  ∀ s : State, ¬ Quiescent s.rxBuf → ∃ t : State, step s = .next t ∧ t.host.requests = s.host.requests ∧
    Config.minScan ≤ s.rxBuf.length ∧ t.rxBuf.length < s.rxBuf.length ∧
    (∃ k : Nat, t.rxBuf = s.rxBuf.drop k ∧ (k = Config.discardHdrMiss ∨
      k = (byteAt s.rxBuf 2).toNat + Config.overhead ∨ k = Config.discardCksFail)) ∧
    ∃ f : Option Frame, returnedFrames t.host.results = returnedFrames s.host.results ++ f.toList

/-! FEED. -/

/-- 41_reassembler R100: the request, and FEED as the source's loop on the buffer with the byte appended; the loop has
exactly one outcome. -/
def Obligations.FeedRunsTheLoop : Prop :=
  1 ≤ Config.minScan ∧ 1 ≤ Config.discardHdrMiss ∧ 1 ≤ Config.discardCksFail ∧
  ∀ (s : State) (b : Byte), encode (.feed b) = [0x02#8, b] ∧
    ∃ (fs : List Frame) (r : Block), Drains (s.rxBuf ++ [b]) fs r ∧
      (∀ (fs' : List Frame) (r' : Block), Drains (s.rxBuf ++ [b]) fs' r' → fs' = fs ∧ r' = r) ∧
      exec (.feed b) s = .next { s with rxBuf := r, host.results := s.host.results ++ [.frames fs] }

/-- 41_reassembler section 2, with log entry 4: FEED is its append and then micro-steps, each the one the loop chooses (any
other is refused, `UnchosenMicroStepIsRefused`), up to the first SHORT or STALL; the micro-steps leave the buffer FEED
leaves and put out the records FEED returns, in its order. That a micro-step is an instruction of its own, which returns
its record at once, is the model's choice (log entry 4), and the last clause rests on it; that a step takes no request on
the way is `RequestsAreHeldDuringAFeed`. -/
def Obligations.FeedIsItsMicroSteps : Prop :=
  1 ≤ Config.minScan ∧ 1 ≤ Config.discardHdrMiss ∧ 1 ≤ Config.discardCksFail ∧
  ∀ (s : State) (b : Byte), ∃ (going : List RxStep) (last : RxStep) (fs : List Frame) (t : State),
    (∀ k ∈ going, k ≠ .short ∧ k ≠ .stall) ∧ (last = .short ∨ last = .stall) ∧
    exec (.feed b) s = .next { s with rxBuf := t.rxBuf, host.results := s.host.results ++ [.frames fs] } ∧
    execSeq ((going ++ [last]).map RxStep.instr) { s with rxBuf := s.rxBuf ++ [b] } = .next t ∧
    t.host.requests = s.host.requests ∧
    returnedFrames t.host.results = returnedFrames s.host.results ++ fs

/-- 41_reassembler R112: a removing micro-step needs `MIN_SCAN` = 7 bytes and removes at least one, so a FEED takes at most
`m - 6` of them and one that stops it, and at most 255 in all on 260 bytes. -/
def Obligations.EveryFeedEnds : Prop :=
  1 ≤ Config.minScan ∧ 1 ≤ Config.discardHdrMiss ∧ 1 ≤ Config.discardCksFail ∧
  (∀ (s t : State) (k : RxStep), k ≠ .short → k ≠ .stall → exec k.instr s = .next t →
    Config.minScan ≤ s.rxBuf.length ∧ t.rxBuf.length < s.rxBuf.length) ∧
  ∀ (s : State) (b : Byte), ∃ (going : List RxStep) (last : RxStep) (t u : State),
    (∀ k ∈ going, k ≠ .short ∧ k ≠ .stall) ∧ (last = .short ∨ last = .stall) ∧
    exec (.feed b) s = .next t ∧
    execSeq ((going ++ [last]).map RxStep.instr) { s with rxBuf := s.rxBuf ++ [b] } = .next u ∧ u.rxBuf = t.rxBuf ∧
    going.length ≤ s.rxBuf.length + 1 - (Config.minScan - 1) ∧
    (s.rxBuf.length + 1 ≤ Config.rxCap → going.length + 1 ≤ 255)

/-- 41_reassembler R110: FEED and RESET leave a quiescent buffer, whatever buffer they started on. -/
def Obligations.FeedLeavesAQuiescentBuffer : Prop :=
  1 ≤ Config.minScan ∧ 1 ≤ Config.discardHdrMiss ∧ 1 ≤ Config.discardCksFail ∧
  ∀ s : State, (∀ b : Byte, ∃ t : State, exec (.feed b) s = .next t ∧ Quiescent t.rxBuf) ∧
    ∃ t : State, exec .reset s = .next t ∧ Quiescent t.rxBuf

/-- 41_reassembler R111: a quiescent buffer has at most 259 bytes, and no pass of a FEED holds more than 260. -/
def Obligations.BufferNeverPassesItsCapacity : Prop :=
  Config.minScan ≤ Config.rxCap ∧
  ∀ s : State, Quiescent s.rxBuf → s.rxBuf.length ≤ 259 ∧
    ∀ (b : Byte) (k : Nat), (runLoop k (bufAppend b s.rxBuf) []).2.length ≤ Config.rxCap

/-- 41_reassembler section 2, the result: the list of a FEED is in stream order, its records' bytes and the bytes left
standing in that order in the buffer it worked on, and it has at most 52 records. -/
def Obligations.FeedListIsInStreamOrder : Prop :=
  Config.minScan ≤ Config.rxCap ∧
  ∀ (s : State) (b : Byte), Quiescent s.rxBuf → ∃ (fs : List Frame) (r : List Byte),
    exec (.feed b) s = .next { s with rxBuf := r, host.results := s.host.results ++ [.frames fs] } ∧
    fs.length ≤ 52 ∧ List.Sublist (fs.flatMap Frame.bytes ++ r) (s.rxBuf ++ [b])

/-- 41_reassembler R120: every record a FEED returns stands for a valid frame. -/
def Obligations.ReturnedFramesAreValid : Prop :=
  ∀ (s : State) (b : Byte), ∃ (fs : List Frame) (t : State), exec (.feed b) s = .next t ∧
    t.host.results = s.host.results ++ [.frames fs] ∧ ∀ f ∈ fs, GoodFrame f

/-- 41_reassembler section 3, no early emission: a record is returned only once all its bytes, its checksum byte the last
of them, have been fed: they stand together in the buffer with the fed bytes. -/
def Obligations.NoFrameIsReturnedEarly : Prop :=
  ∀ (s : State) (bs : List Byte), ∃ fss : List (List Frame), ∃ r : List Byte,
    execSeq (bs.map .feed) s = .next { s with rxBuf := r, host.results := s.host.results ++ fss.map .frames } ∧
    ∀ (k : Nat) (f : Frame), f ∈ (fss.take k).flatten → List.IsInfix f.bytes (s.rxBuf ++ bs.take k)

/-- 10_state R21: only FEED adds to the buffer and only at its end, bytes leave it only from its front, RESET empties it,
and no instruction changes a byte in place. -/
def Obligations.BufferIsAQueue : Prop :=
  (∀ (i : Instr) (s t : State), exec i s = .next t → List.IsSuffix t.rxBuf (s.rxBuf ++ appended i)) ∧
  ∀ s : State, ∃ t : State, exec .reset s = .next t ∧ t.rxBuf = []

/-! Streams of FEEDs. -/

/-- 30_encoding section 3, the pseudo-operation, with log entry 19: FEEDS stands for the FEEDs of its bytes, its result is
the concatenation of theirs, and `FEEDS []` is no operation. -/
def Obligations.FeedsStandsForFeedsInTurn : Prop :=
  (∀ s : State, exec (.feeds []) s = .next s) ∧
  ∀ (s : State) (bs : List Byte), bs ≠ [] →
    encode (.feeds bs) = bs.flatMap (fun b => encode (.feed b)) ∧
    ∃ (fss : List (List Frame)) (r : List Byte), fss.length = bs.length ∧
      execSeq (bs.map .feed) s = .next { s with rxBuf := r, host.results := s.host.results ++ fss.map .frames } ∧
      exec (.feeds bs) s = .next { s with rxBuf := r, host.results := s.host.results ++ [.frames fss.flatten] }

/-- 41_reassembler R113: bytes fed one at a time give what the source's loop run once on all of them gives, and how a
stream is cut never matters. -/
def Obligations.FeedingInPiecesAgrees : Prop :=
  3 ≤ Config.minScan ∧ 1 ≤ Config.discardHdrMiss ∧ Config.discardHdrMiss ≤ Config.minScan ∧
  1 ≤ Config.discardCksFail ∧ Config.discardCksFail ≤ Config.minScan ∧
  (∀ (s : State) (bs : List Byte), Quiescent s.rxBuf →
    ∃ (fss : List (List Frame)) (r : List Byte), Drains (s.rxBuf ++ bs) fss.flatten r ∧
      execSeq (bs.map .feed) s = .next { s with rxBuf := r, host.results := s.host.results ++ fss.map .frames }) ∧
  ∀ (buf xs ys r₁ r₂ : List Byte) (fs₁ fs₂ : List Frame), Drains (buf ++ xs) fs₁ r₁ → Drains (r₁ ++ ys) fs₂ r₂ →
    Drains (buf ++ (xs ++ ys)) (fs₁ ++ fs₂) r₂

/-- 41_reassembler R114: after RESET, results and buffer are a function of the fed bytes, whatever the state was. -/
def Obligations.StreamDeterminesFrames : Prop :=
  ∀ bs : List Byte, ∃ (fss : List (List Frame)) (r : List Byte), ∀ s : State,
    execSeq (.reset :: bs.map .feed) s = .next { s with rxBuf := r, host.results := s.host.results ++ fss.map .frames }

/-- 41_reassembler R116: an aligned frame of 2 or more payload bytes is returned exactly at its last byte. -/
def Obligations.AlignedFrameIsReturnedAtItsLastByte : Prop :=
  3 ≤ Config.minScan ∧
  ∀ (s : State) (f : List Byte), s.rxBuf = [] → ValidFrame f →
    Config.minScan ≤ (byteAt f 2).toNat + Config.overhead → execSeq (f.map .feed) s = .next { s with
      rxBuf := []
      host.results := s.host.results ++ List.replicate ((byteAt f 2).toNat + 4) (.frames []) ++ [.frames [frameOf f]] }

/-- 41_reassembler R117: a frame of 0 or 1 payload bytes, shorter than `MIN_SCAN` = 7, waits, and is returned by the FEED
that brings the buffer to 7 bytes, whatever bytes come; those stay. -/
def Obligations.ShortFrameWaitsForSevenBytes : Prop :=
  ∀ (s : State) (f : List Byte), s.rxBuf = [] → ValidFrame f →
    (byteAt f 2).toNat + Config.overhead < Config.minScan →
    execSeq (f.map .feed) s = .next { s with
      rxBuf := f
      host.results := s.host.results ++ List.replicate f.length (.frames []) } ∧
    ∀ g : List Byte, g.length = Config.minScan - ((byteAt f 2).toNat + Config.overhead) →
      execSeq ((f ++ g).map .feed) s = .next { s with
        rxBuf := g
        host.results := s.host.results ++ List.replicate (Config.minScan - 1) (.frames []) ++
          [.frames [frameOf f]] }

/-- 41_reassembler R118: leading garbage without a sync pair is removed a byte at a time, each removal once the buffer
holds `MIN_SCAN` = 7 bytes, and the frame after it, of 7 bytes or more, is returned at its last byte. -/
def Obligations.GarbageIsDroppedByteByByte : Prop :=
  Config.discardHdrMiss = 1 ∧ Config.lead1 ≠ Config.lead2 ∧
  ∀ (s : State) (g f : List Byte), s.rxBuf = [] → NoSyncPair g → ValidFrame f →
    Config.minScan ≤ (byteAt f 2).toNat + Config.overhead →
    (∀ k : Nat, k ≤ g.length + (Config.minScan - 1) → execSeq (((g ++ f).take k).map .feed) s = .next { s with
      rxBuf := ((g ++ f).take k).drop (Config.discardHdrMiss * (k - (Config.minScan - 1)))
      host.results := s.host.results ++ List.replicate k (.frames []) }) ∧
    execSeq ((g ++ f).map .feed) s = .next { s with
      rxBuf := []
      host.results := s.host.results ++ List.replicate (g.length + (byteAt f 2).toNat + 4) (.frames []) ++
        [.frames [frameOf f]] }

/-- 41_reassembler section 3, rescanning: a candidate whose checksum fails and whose bytes from offset 2 on hold no sync
pair does not hide the valid frame right after it, which is returned at its last byte. -/
def Obligations.FrameAfterAFailedCandidateIsFound : Prop :=
  Config.discardHdrMiss = 1 ∧ Config.discardCksFail = 2 ∧ Config.lead1 ≠ Config.lead2 ∧
  ∀ (s : State) (c f : List Byte), s.rxBuf = [] →
    c.length = (byteAt c 2).toNat + Config.overhead → byteAt c 0 = Config.lead1 → byteAt c 1 = Config.lead2 →
    cks (slice c 0 (c.length - 1)) ≠ byteAt c (c.length - 1) → NoSyncPair (c.drop Config.discardCksFail) →
    ValidFrame f → Config.minScan ≤ (byteAt f 2).toNat + Config.overhead →
    execSeq ((c ++ f).map .feed) s = .next { s with
      rxBuf := []
      host.results := s.host.results ++ List.replicate (c.length + (byteAt f 2).toNat + 4) (.frames []) ++
        [.frames [frameOf f]] }

/-- 70_reset_and_hazards section 3, the stall: until the candidate at the front is complete nothing is examined, removed
or returned, whatever the bytes are. -/
def Obligations.StallHoldsEverythingBehindIt : Prop :=
  3 ≤ Config.minScan ∧
  ∀ (s : State) (bs : List Byte), Config.minScan ≤ s.rxBuf.length →
    byteAt s.rxBuf 0 = Config.lead1 → byteAt s.rxBuf 1 = Config.lead2 →
    s.rxBuf.length + bs.length < (byteAt s.rxBuf 2).toNat + Config.overhead →
    execSeq (bs.map .feed) s = .next { s with
      rxBuf := s.rxBuf ++ bs
      host.results := s.host.results ++ List.replicate bs.length (.frames []) } ∧
    bs.length < Config.maxFrame - Config.minScan

/-- 41_reassembler R122: ENCODE's bytes, fed back byte by byte, return the command and the payload; a frame shorter than
`MIN_SCAN` = 7, one of less than 2 payload bytes, only after `2 - |p|` more bytes. -/
def Obligations.EncodeThenFeedRoundTrips : Prop :=
  ∀ (s : State) (cmd : Byte) (p : List Byte), s.rxBuf = [] → p.length ≤ Config.maxPayload →
    ∃ (f : List Byte) (rec : Frame),
      exec (.encode cmd p) s = .next { s with host.results := s.host.results ++ [.encoded f] } ∧
      rec.command = cmd ∧ rec.payload = p ∧
      (Config.minScan ≤ p.length + Config.overhead → execSeq (f.map .feed) s = .next { s with
        host.results := s.host.results ++ List.replicate (p.length + 4) (.frames []) ++ [.frames [rec]] }) ∧
      (p.length + Config.overhead < Config.minScan →
        execSeq (f.map .feed) s = .next { s with
          rxBuf := f
          host.results := s.host.results ++ List.replicate f.length (.frames []) } ∧
        ∀ g : List Byte, g.length = Config.minScan - (p.length + Config.overhead) →
          execSeq ((f ++ g).map .feed) s = .next { s with
            rxBuf := g
            host.results := s.host.results ++ List.replicate (Config.minScan - 1) (.frames []) ++
              [.frames [rec]] })

/-! The whole machine. -/

/-- 60_exceptions section 1: a step answers a next state inside a FEED, with nothing pending, and for every request the
block accepts; on any other it refuses with RESERVED_OP or TRUNCATED_REQUEST, so it never faults (Fault has no constructor,
log entry 15) and never refuses otherwise. Every operation the block accepts completes, keeping the pending requests and
the results before it (the model's interface, log entries 2 and 3). -/
def Obligations.AcceptedOperationsComplete : Prop :=
  (∀ s : State, (¬ Quiescent s.rxBuf ∨ s.host.requests = [] ∨
      ∃ (i : Instr) (rest : List Byte), decode s.host.requests = .ok i rest ∧ hostIssued i = true) →
    ∃ t : State, step s = .next t) ∧
  (∀ s : State, (∃ t : State, step s = .next t) ∨ (∃ op : Byte, step s = .refused (.reservedOp op)) ∨
    ∃ (op : Byte) (present : Nat), step s = .refused (.truncatedRequest op present)) ∧
  ∀ (i : Instr) (s : State), i.wf = true → hostIssued i = true →
    ∃ t : State, exec i s = .next t ∧ t.host.requests = s.host.requests ∧
      List.IsPrefix s.host.results t.host.results

/-- 20_memory section 3, with the model's interface (log entries 2, 3 and 4): no instruction takes a request or alters a
result already returned, each adds at most one, and RESET, HDR_MISS, CKFAIL, SHORT and STALL add none. -/
def Obligations.InstructionFrame : Prop :=
  ∀ (i : Instr) (s t : State), exec i s = .next t → t.host.requests = s.host.requests ∧
    ∃ r : Option Result, t.host.results = s.host.results ++ r.toList ∧
      (i = .reset ∨ i = .hdrMiss ∨ i = .ckfail ∨ i = .short ∨ i = .stall → r = none)

/-- 10_state section 1, with the model's interface (log entries 2 and 3): the buffer is the block's whole state. What an
instruction leaves in it, what it returns and whether it is refused are a function of the buffer it finds, whatever the
host has pending and whatever has been returned before. -/
def Obligations.OnlyTheBufferIsState : Prop :=
  ∀ (i : Instr) (buf : Block),
    (∃ (r : Block) (out : List Result), ∀ h : HostSide, exec i { rxBuf := buf, host := h } =
      .next { rxBuf := r, host := { h with results := h.results ++ out } }) ∨
    ∃ why : Refusal, ∀ h : HostSide, exec i { rxBuf := buf, host := h } = .refused why

/-- 20_memory R51: an ENCODE or VALIDATE moved before or after a FEED or RESET changes no result and no buffer. -/
def Obligations.TransmitAndReceiveAreIndependent : Prop :=
  ∀ (i : Instr), i.wf = true → ((∃ cmd p, i = .encode cmd p) ∨ ∃ c, i = .validate c) →
    ∃ v : Result, ∀ (j : Instr) (s : State), ((∃ b, j = .feed b) ∨ j = .reset) →
      ∃ (r : List Byte) (out : List Result),
        exec j s = .next { s with rxBuf := r, host.results := s.host.results ++ out } ∧
        execSeq [i, j] s = .next { s with rxBuf := r, host.results := s.host.results ++ [v] ++ out } ∧
        execSeq [j, i] s = .next { s with rxBuf := r, host.results := s.host.results ++ out ++ [v] }

/-- The invariant of Safety.lean (41_reassembler R111, R120) is kept by every step, from every state that has it, and by
every instruction, FEEDS and the micro-steps among them; and so is the quiescent condition (R110). -/
def Obligations.InvariantIsKept : Prop :=
  1 ≤ Config.minScan ∧ 1 ≤ Config.discardHdrMiss ∧ 1 ≤ Config.discardCksFail ∧ Config.minScan ≤ Config.rxCap ∧
  (∀ s t : State, Inv s → step s = .next t → Inv t ∧ (Quiescent s.rxBuf → Quiescent t.rxBuf)) ∧
  ∀ (i : Instr) (s t : State), Inv s → exec i s = .next t → Inv t ∧ (Quiescent s.rxBuf → Quiescent t.rxBuf)

/-- 41_reassembler section 3, 70_reset_and_hazards section 1: the reset state has the invariant and is quiescent. That no
result has been returned at reset is the model's value, log entry 3. -/
def Obligations.ResetHasTheInvariant : Prop :=
  1 ≤ Config.minScan ∧ Inv State.reset ∧ Quiescent State.reset.rxBuf

/-! Reference data of the payloads. -/

/-- 30_encoding section 2, 20_memory section 2: every field of the payload layouts stands at its offset, least
significant byte first (little-endian as log entry 18 reads it). -/
def Obligations.PayloadFieldsStandAtTheirOffsets : Prop :=
  (∀ (ht ver cn mn : Byte) (cb : BitVec 16), ∃ p : List Byte, p = inforResponse ht ver cn mn cb ∧ p.length = 6 ∧
    byteAt p 0 = ht ∧ byteAt p 1 = ver ∧ byteAt p 2 = cn ∧ byteAt p 3 = mn ∧
    (byteAt p 4).toNat + 256 * (byteAt p 5).toNat = cb.toNat) ∧
  (∀ (ci ch : Byte) (ma : BitVec 16) (d : BitVec 32), ∃ p : List Byte, p = devRequest ci ch ma d ∧ p.length = 8 ∧
    byteAt p 0 = ci ∧ byteAt p 1 = ch ∧ (byteAt p 2).toNat + 256 * (byteAt p 3).toNat = ma.toNat ∧
    (byteAt p 4).toNat + 256 * ((byteAt p 5).toNat + 256 * ((byteAt p 6).toNat + 256 * (byteAt p 7).toNat)) = d.toNat) ∧
  (∀ (ci ch res : Byte) (ma : BitVec 16) (d : BitVec 32), ∃ p : List Byte, p = devResponse ci ch res ma d ∧
    p.length = 9 ∧ byteAt p 0 = ci ∧ byteAt p 1 = ch ∧ byteAt p 2 = res ∧
    (byteAt p 3).toNat + 256 * (byteAt p 4).toNat = ma.toNat ∧
    (byteAt p 5).toNat + 256 * ((byteAt p 6).toNat + 256 * ((byteAt p 7).toNat + 256 * (byteAt p 8).toNat)) = d.toNat) ∧
  (∀ st : Byte, ∃ p : List Byte, p = ruleDownResponse st ∧ p.length = 1 ∧ byteAt p 0 = st) ∧
  ∀ (st : Byte) (ad : BitVec 16) (cmdBuf : List Byte), cmdBuf.length ≤ 255 → ∃ p : List Byte,
    p = ruleDownRequest st ad cmdBuf ∧ p.length = 4 + cmdBuf.length ∧ byteAt p 0 = st ∧
    (byteAt p 1).toNat + 256 * (byteAt p 2).toNat = ad.toNat ∧ (byteAt p 3).toNat = cmdBuf.length ∧ p.drop 4 = cmdBuf

/-- 30_encoding section 2, 70_reset_and_hazards section 3: a lone RuleDown response is a frame of 6 bytes, one less than
`MIN_SCAN`, and it stays in the buffer until one more byte arrives. -/
def Obligations.LoneRuleDownResponseIsHeld : Prop :=
  ∀ (s : State) (tag status next : Byte), s.rxBuf = [] → ∃ f : List Byte,
    exec (.encode tag (ruleDownResponse status)) s =
      .next { s with host.results := s.host.results ++ [.encoded f] } ∧
    f.length = 6 ∧ f.length + 1 = Config.minScan ∧ byteAt f 4 = status ∧
    execSeq (f.map .feed) s = .next { s with
      rxBuf := f
      host.results := s.host.results ++ List.replicate f.length (.frames []) } ∧
    execSeq ((f ++ [next]).map .feed) s = .next { s with
      rxBuf := [next]
      host.results := s.host.results ++ List.replicate f.length (.frames []) ++ [.frames [frameOf f]] }
end

