-- ==== Sys2Proof/Laws/Bytes.lean ====
section
/-! SUPPORT. Indices, slices and the checksum of byte sequences. -/

namespace Sys2Proof.Machine

theorem byteAt_eq_getElem {s : List Byte} {i : Nat} (h : i < s.length) : byteAt s i = s[i] := by
  simp [byteAt, h]

@[simp] theorem byteAt_cons_zero (b : Byte) (s : List Byte) : byteAt (b :: s) 0 = b := rfl

@[simp] theorem byteAt_cons_succ (b : Byte) (s : List Byte) (i : Nat) : byteAt (b :: s) (i + 1) = byteAt s i := rfl

theorem byteAt_append_left {s : List Byte} (t : List Byte) {i : Nat} (h : i < s.length) :
    byteAt (s ++ t) i = byteAt s i := by
  simp [byteAt, List.getD_eq_getElem?_getD, List.getElem?_append_left h]

theorem byteAt_append_right {s : List Byte} (t : List Byte) {i : Nat} (h : s.length ≤ i) :
    byteAt (s ++ t) i = byteAt t (i - s.length) := by
  simp [byteAt, List.getD_eq_getElem?_getD, List.getElem?_append_right h]

theorem byteAt_take {s : List Byte} {k i : Nat} (h : i < k) : byteAt (s.take k) i = byteAt s i := by
  simp [byteAt, List.getD_eq_getElem?_getD, h]

theorem byteAt_drop (s : List Byte) (k i : Nat) : byteAt (s.drop k) i = byteAt s (k + i) := by
  simp [byteAt, List.getD_eq_getElem?_getD, List.getElem?_drop]

theorem slice_zero (s : List Byte) (k : Nat) : slice s 0 k = s.take k := rfl

theorem slice_append_left {s : List Byte} (t : List Byte) {k : Nat} (h : k ≤ s.length) :
    slice (s ++ t) 0 k = slice s 0 k := by
  simp [slice_zero, List.take_append_of_le_length h]

theorem slice_length (s : List Byte) (a b : Nat) : (slice s a b).length = min (b - a) (s.length - a) := by
  simp [slice]

theorem sumBytes_append (s t : List Byte) : sumBytes (s ++ t) = sumBytes s + sumBytes t := by
  simp [sumBytes]

theorem sumBytes_cons (b : Byte) (s : List Byte) : sumBytes (b :: s) = b.toNat + sumBytes s := by
  simp [sumBytes]

theorem cks_append (s t : List Byte) : cks (s ++ t) = cks s + cks t := by
  simp only [cks, sumBytes_append, BitVec.ofNat_add]
  rfl

theorem cks_singleton (b : Byte) : cks [b] = b := by
  simp [cks, sumBytes, Config.cksBits]

theorem cks_cons (b : Byte) (s : List Byte) : cks (b :: s) = b + cks s := by
  rw [← List.singleton_append, cks_append, cks_singleton]

end Sys2Proof.Machine
end

