-- ==== Sys2Proof/Laws/Choice.lean ====
section
/-! SUPPORT. What each choice of the micro-step says about the buffer. -/

namespace Sys2Proof.Machine

/-- The choice with its conditions written out, in the order of 41_reassembler R101. -/
theorem selectStep_unfolded (buf : List Byte) : selectStep buf =
    if buf.length < Config.minScan then .short
    else if byteAt buf 0 ≠ Config.lead1 ∨ byteAt buf 1 ≠ Config.lead2 then .hdrMiss
    else if (byteAt buf 2).toNat + Config.overhead > buf.length then .stall
    else if cks (slice buf 0 ((byteAt buf 2).toNat + 4)) = byteAt buf ((byteAt buf 2).toNat + 4) then .emit
    else .ckfail := by
  have hdr : ((!syncAtFront buf) = true) ↔ (byteAt buf 0 ≠ Config.lead1 ∨ byteAt buf 1 ≠ Config.lead2) := by
    simp [syncAtFront]
  have inc : incomplete buf = true ↔ (byteAt buf 2).toNat + Config.overhead > buf.length := decide_eq_true_iff
  have ok : cksMatches buf = true ↔
      cks (slice buf 0 ((byteAt buf 2).toNat + 4)) = byteAt buf ((byteAt buf 2).toNat + 4) := beq_iff_eq
  have sh : tooShort buf = true ↔ buf.length < Config.minScan := decide_eq_true_iff
  simp only [selectStep, hdr, inc, ok, sh]

theorem selectStep_short {buf : List Byte} (h : selectStep buf = .short) : buf.length < Config.minScan := by
  rw [selectStep_unfolded] at h
  split_ifs at h with h1
  exact h1

/-- Any choice but SHORT is made on at least `MIN_SCAN` bytes. -/
theorem selectStep_long {buf : List Byte} (h : selectStep buf ≠ .short) : Config.minScan ≤ buf.length := by
  rw [selectStep_unfolded] at h
  split_ifs at h with h1
  · exact absurd rfl h
  all_goals omega

theorem selectStep_hdrMiss {buf : List Byte} (h : selectStep buf = .hdrMiss) :
    byteAt buf 0 ≠ Config.lead1 ∨ byteAt buf 1 ≠ Config.lead2 := by
  rw [selectStep_unfolded] at h
  split_ifs at h with _ h2
  exact h2

/-- STALL, EMIT and CKFAIL are chosen with the sync pattern at the front. -/
theorem selectStep_sync {buf : List Byte} (h1 : selectStep buf ≠ .short) (h2 : selectStep buf ≠ .hdrMiss) :
    byteAt buf 0 = Config.lead1 ∧ byteAt buf 1 = Config.lead2 := by
  rw [selectStep_unfolded] at h1 h2
  split_ifs at h1 h2 with ha hb
  · exact absurd rfl h1
  · exact absurd rfl h2
  all_goals simpa using hb

theorem selectStep_stall {buf : List Byte} (h : selectStep buf = .stall) :
    (byteAt buf 2).toNat + Config.overhead > buf.length := by
  rw [selectStep_unfolded] at h
  split_ifs at h with _ _ h3
  exact h3

/-- EMIT and CKFAIL are chosen on a complete candidate, EMIT exactly when its checksum matches. -/
theorem selectStep_complete {buf : List Byte} (h : selectStep buf = .emit ∨ selectStep buf = .ckfail) :
    (byteAt buf 2).toNat + Config.overhead ≤ buf.length ∧
      (selectStep buf = .emit ↔ cks (slice buf 0 ((byteAt buf 2).toNat + 4)) = byteAt buf ((byteAt buf 2).toNat + 4)) := by
  rw [selectStep_unfolded] at h ⊢
  split_ifs at h ⊢ with _ _ h3 h4
  · simp at h
  · simp at h
  · simp at h
  · exact ⟨Nat.le_of_not_lt h3, by simpa using h4⟩
  · exact ⟨Nat.le_of_not_lt h3, by simpa using h4⟩

end Sys2Proof.Machine
end

