-- ==== Sys2Proof/Laws/Codec.lean ====
section
/-! SUPPORT. The parts of an encoded frame, and the bytes of a record made from a byte sequence. -/

namespace Sys2Proof.Machine

theorem frameHead_length (cmd : Byte) (p : List Byte) : (frameHead cmd p).length = p.length + 4 := by
  simp [frameHead]

theorem encodeFrame_length (cmd : Byte) (p : List Byte) : (encodeFrame cmd p).length = p.length + 5 := by
  simp [encodeFrame, frameHead_length]

/-- `frame_of` keeps every byte of a sequence of `c[2] + 5` bytes (00_scope R13). -/
theorem frameOf_bytes {c : List Byte} (h : c.length = (byteAt c 2).toNat + 5) : (frameOf c).bytes = c := by
  apply List.ext_getElem
  · simp [Frame.bytes, frameOf, slice_length]; omega
  intro i h1 h2
  rw [← byteAt_eq_getElem h1, ← byteAt_eq_getElem h2]
  match i with
  | 0 | 1 | 2 | 3 => rfl
  | i + 4 =>
    have hl : (slice c 4 (4 + (byteAt c 2).toNat)).length = (byteAt c 2).toNat := by rw [slice_length]; omega
    have hb : (frameOf c).bytes = [byteAt c 0, byteAt c 1, byteAt c 2, byteAt c 3] ++
        (slice c 4 (4 + (byteAt c 2).toNat) ++ [byteAt c (4 + (byteAt c 2).toNat)]) := by
      simp [Frame.bytes, frameOf]
    rw [hb, byteAt_append_right _ (by simp)]
    simp only [List.length_cons, List.length_nil, Nat.reduceAdd, Nat.add_sub_cancel]
    by_cases hi : i < (byteAt c 2).toNat
    · rw [byteAt_append_left _ (by omega), slice, byteAt_take (by omega), byteAt_drop, Nat.add_comm]
    · rw [byteAt_append_right _ (by omega), hl]
      obtain rfl : i = (byteAt c 2).toNat := by omega
      simp [Nat.add_comm]

end Sys2Proof.Machine
end

