-- ==== Sys2Proof/Laws/PerInstr.lean ====
section
/-! SUPPORT. The family RequestBytes: what every constructor's encoding looks like (30_encoding R74, R75, R79). -/

namespace Sys2Proof.Laws.RequestBytes

/-- A well-formed request begins with its operation byte and has exactly the length the decoder reads off it; FEEDS has
two bytes for each byte it feeds; a micro-step has no request. -/
def Statement (i : Instr) : Prop :=
  i.wf = true →
    if i.isRequest = true then (encode i).length = requestLength (encode i) ∧ 0 < (encode i).length
    else match i with
      | .feeds bs => (encode i).length = 2 * bs.length
      | _ => encode i = []

theorem reset : Statement .reset := by intro _; decide

theorem feed (b : Byte) : Statement (.feed b) := by
  intro _; simp [Instr.isRequest, encode, requestLength, Machine.byteAt]

theorem encode (cmd : Byte) (p : List Byte) : Statement (.encode cmd p) := by
  intro h
  have hp : p.length ≤ 255 := of_decide_eq_true h
  have hm : p.length % 256 = p.length := Nat.mod_eq_of_lt (by omega)
  simp [Instr.isRequest, Sys2Proof.encode, requestLength, Machine.byteAt, opEncode, opFeed, hm]
  omega

theorem validate (c : List Byte) : Statement (.validate c) := by
  intro h
  have hc : 5 ≤ c.length ∧ c.length ≤ 260 := by
    simp only [Instr.wf, Bool.and_eq_true, decide_eq_true_eq] at h
    exact h
  have hm : (c.length - 5) % 256 = c.length - 5 := Nat.mod_eq_of_lt (by omega)
  simp [Instr.isRequest, Sys2Proof.encode, requestLength, Machine.byteAt, opEncode, opFeed, opValidate,
    Config.overhead, hm]
  omega

theorem reserved : Statement .reserved := by intro _; decide

theorem reservedHigh (op : Byte) : Statement (.reservedHigh op) := by
  intro h
  have ho : 5 ≤ op.toNat := by simpa [Instr.wf] using h
  have h2 : op ≠ opFeed := by rintro rfl; simp [opFeed] at ho
  have h3 : op ≠ opEncode := by rintro rfl; simp [opEncode] at ho
  have h4 : op ≠ opValidate := by rintro rfl; simp [opValidate] at ho
  simp [Instr.isRequest, Sys2Proof.encode, requestLength, Machine.byteAt, h2, h3, h4]

theorem encodeFeeds_length (bs : List Byte) : (encodeFeeds bs).length = 2 * bs.length := by
  induction bs with
  | nil => rfl
  | cons b bs ih => simp [encodeFeeds, ih]; omega

theorem feeds (bs : List Byte) : Statement (.feeds bs) := by
  intro _; simpa [Instr.isRequest, Sys2Proof.encode] using encodeFeeds_length bs

theorem short : Statement .short := by intro _; simp [Instr.isRequest, Sys2Proof.encode]

theorem hdrMiss : Statement .hdrMiss := by intro _; simp [Instr.isRequest, Sys2Proof.encode]

theorem stall : Statement .stall := by intro _; simp [Instr.isRequest, Sys2Proof.encode]

theorem emit : Statement .emit := by intro _; simp [Instr.isRequest, Sys2Proof.encode]

theorem ckfail : Statement .ckfail := by intro _; simp [Instr.isRequest, Sys2Proof.encode]

end Sys2Proof.Laws.RequestBytes
end

