-- ==== Sys2Proof/Laws/State.lean ====
section
/-! SUPPORT. What each named operation does to each field, and when a micro-step runs. -/

namespace Sys2Proof.Machine

@[simp] theorem setBuffer_rxBuf (buf : Block) (s : State) : (setBuffer buf s).rxBuf = buf := rfl
@[simp] theorem setBuffer_host (buf : Block) (s : State) : (setBuffer buf s).host = s.host := rfl

@[simp] theorem returnResult_rxBuf (r : Result) (s : State) : (returnResult r s).rxBuf = s.rxBuf := rfl
@[simp] theorem returnResult_requests (r : Result) (s : State) :
    (returnResult r s).host.requests = s.host.requests := rfl
@[simp] theorem returnResult_results (r : Result) (s : State) :
    (returnResult r s).host.results = s.host.results ++ [r] := rfl

@[simp] theorem bufAppend_length (b : Byte) (buf : Block) : (bufAppend b buf).length = buf.length + 1 := by
  simp [bufAppend]

@[simp] theorem bufDrop_length (k : Nat) (buf : Block) : (bufDrop k buf).length = buf.length - k := by
  simp [bufDrop]

theorem bufDrop_suffix (k : Nat) (buf : Block) : List.IsSuffix (bufDrop k buf) buf := List.drop_suffix k buf

/-- A micro-step runs where the loop chooses it. -/
theorem chosenStep_of_chosen {k : RxStep} {s : State} (t : State) (hk : selectStep s.rxBuf = k) :
    chosenStep k s t = .next t := if_pos hk

/-- A micro-step that the loop does not choose is refused. -/
theorem chosenStep_of_unchosen {k : RxStep} {s : State} (t : State) (hk : selectStep s.rxBuf ≠ k) :
    chosenStep k s t = .refused (.stepNotChosen k) := if_neg hk

/-- All a micro-step can answer with a next state. -/
theorem chosenStep_next {k : RxStep} {s t u : State} (h : chosenStep k s t = .next u) :
    selectStep s.rxBuf = k ∧ u = t := by
  unfold chosenStep at h
  split at h
  · rename_i hk; cases h; exact ⟨hk, rfl⟩
  · cases h

end Sys2Proof.Machine
end

