-- ==== Sys2Proof/Laws/Reassembler.lean ====
section
/-! SUPPORT. What a pass of the loop does, what a FEED and FEEDs in turn do in terms of the source's loop, and what a step
of a buffer that is not quiescent does. -/

namespace Sys2Proof.Machine

/-- A pass of the loop, case by case. -/
theorem rxStep_cases (buf : Block) :
    ((selectStep buf = .short ∨ selectStep buf = .stall) ∧ rxStep buf = none) ∨
    (selectStep buf = .hdrMiss ∧ rxStep buf = some (buf.drop Config.discardHdrMiss, none)) ∨
    (selectStep buf = .emit ∧ rxStep buf = some (buf.drop ((byteAt buf 2).toNat + Config.overhead),
      some (frameOf (slice buf 0 ((byteAt buf 2).toNat + Config.overhead))))) ∨
    (selectStep buf = .ckfail ∧ rxStep buf = some (buf.drop Config.discardCksFail, none)) := by
  cases hk : selectStep buf with
  | short => exact .inl ⟨.inl rfl, by simp [rxStep, hk]⟩
  | hdrMiss => exact .inr (.inl ⟨rfl, by simp [rxStep, hk, dropHdrMiss, bufDrop]⟩)
  | stall => exact .inl ⟨.inr rfl, by simp [rxStep, hk]⟩
  | emit =>
    exact .inr (.inr (.inl ⟨rfl, by
      simp [rxStep, hk, dropCandidate, emitted, bufDrop, candidateLen, payloadLen, candidate]⟩))
  | ckfail => exact .inr (.inr (.inr ⟨rfl, by simp [rxStep, hk, dropCkfail, bufDrop]⟩))

theorem rxStep_eq_none_iff (buf : Block) :
    rxStep buf = none ↔ selectStep buf = .short ∨ selectStep buf = .stall := by
  rcases rxStep_cases buf with ⟨h, e⟩ | ⟨h, e⟩ | ⟨h, e⟩ | ⟨h, e⟩ <;> simp [h, e]

/-- The values of 00_scope R7 are such. -/
theorem loopValues : LoopValues := ⟨by decide, by decide, by decide⟩

/-- A pass that goes on drops the bytes of its micro-step from the front. -/
theorem rxStep_drops {buf buf' : Block} {f : Option Frame} (h : rxStep buf = some (buf', f)) :
    Config.minScan ≤ buf.length ∧ ∃ k, buf' = buf.drop k ∧
      (k = Config.discardHdrMiss ∨ k = (byteAt buf 2).toNat + Config.overhead ∨ k = Config.discardCksFail) := by
  rcases rxStep_cases buf with ⟨_, e⟩ | ⟨hk, e⟩ | ⟨hk, e⟩ | ⟨hk, e⟩ <;> rw [e] at h <;> cases h <;>
    exact ⟨selectStep_long (buf := buf) (by simp [hk]), _, rfl, by simp⟩

/-- A pass that goes on needs `MIN_SCAN` bytes and removes at least one of them (41_reassembler R112). -/
theorem rxStep_shorter (hv : LoopValues) {buf buf' : Block} {f : Option Frame} (h : rxStep buf = some (buf', f)) :
    Config.minScan ≤ buf.length ∧ buf'.length < buf.length := by
  obtain ⟨hl, k, rfl, hk⟩ := rxStep_drops h
  have := hv.minScan
  have := hv.discardHdrMiss
  have := hv.discardCksFail
  have : 0 < Config.overhead := by decide
  exact ⟨hl, by rw [List.length_drop]; omega⟩

/-- The loop stops on a quiescent buffer, and only there (41_reassembler R110). -/
theorem quiescent_iff_stops (buf : Block) : Quiescent buf ↔ rxStep buf = none := by
  rw [rxStep_eq_none_iff, selectStep_unfolded]
  unfold Quiescent
  split_ifs with h1 h2 h3
  · simp [h1]
  · simp only [or_self, iff_false]
    rintro (h | ⟨ha, hb, _⟩)
    · exact h1 h
    · exact h2.elim (· ha) (· hb)
  · have hs : byteAt buf 0 = Config.lead1 ∧ byteAt buf 1 = Config.lead2 := by simpa using h2
    simp [hs, h3]
  all_goals
    simp only [or_self, iff_false]
    rintro (h | ⟨_, _, h⟩)
    · exact h1 h
    · exact h3 h

/-- One pass in front of the source's loop. -/
theorem drains_of_rxStep {buf buf' r : Block} {f : Option Frame} {fs : List Frame} (h : rxStep buf = some (buf', f))
    (hd : Drains buf' fs r) : Drains buf (f.toList ++ fs) r := by
  rcases rxStep_cases buf with ⟨_, e⟩ | ⟨hk, e⟩ | ⟨hk, e⟩ | ⟨hk, e⟩ <;> rw [e] at h <;> cases h <;>
    have hl := selectStep_long (buf := buf) (by simp [hk])
  · exact .hdrMiss hl (selectStep_hdrMiss hk) hd
  · have hs := selectStep_sync (buf := buf) (by simp [hk]) (by simp [hk])
    have hc := selectStep_complete (.inl hk)
    exact .emit hl hs.1 hs.2 rfl hc.1 (hc.2.mp hk) hd
  · have hs := selectStep_sync (buf := buf) (by simp [hk]) (by simp [hk])
    have hc := selectStep_complete (.inr hk)
    exact .ckfail hl hs.1 hs.2 rfl hc.1 (fun e => by simp [hc.2.mpr e] at hk) hd

theorem drains_of_quiescent {buf : Block} (h : Quiescent buf) : Drains buf [] buf := by
  by_cases h7 : buf.length < Config.minScan
  · exact .short h7
  · rcases h with h | ⟨h1, h2, h3⟩
    · exact absurd h h7
    · exact .stall (by omega) h1 h2 h3

/-- Enough passes are the source's loop. -/
theorem runLoop_drains (hv : LoopValues) {k : Nat} {buf : Block} (out : List Frame) (hk : buf.length ≤ k) :
    ∃ fs r, Drains buf fs r ∧ runLoop k buf out = (out ++ fs, r) := by
  induction k generalizing buf out with
  | zero => exact ⟨[], buf, .short (by have := hv.minScan; omega), by simp [runLoop]⟩
  | succ k ih =>
    cases he : rxStep buf with
    | none => exact ⟨[], buf, drains_of_quiescent ((quiescent_iff_stops buf).mpr he), by simp [runLoop, he]⟩
    | some p =>
      obtain ⟨fs, r, hd, hr⟩ := ih (out ++ p.2.toList) (buf := p.1) (by have := (rxStep_shorter hv he).2; omega)
      exact ⟨p.2.toList ++ fs, r, drains_of_rxStep he hd, by simp [runLoop, he, hr]⟩

/-- All a FEED computes. -/
theorem feedByte_spec (hv : LoopValues) (b : Byte) (buf : Block) :
    Drains (buf ++ [b]) (feedByte b buf).1 (feedByte b buf).2 := by
  obtain ⟨fs, r, hd, hr⟩ := runLoop_drains hv (k := buf.length + 1) (buf := buf ++ [b]) [] (by simp)
  rw [feedByte, bufAppend, hr]
  exact hd

/-- Passes never lengthen the buffer. -/
theorem runLoop_length_le (k : Nat) (buf : Block) (out : List Frame) : (runLoop k buf out).2.length ≤ buf.length := by
  induction k generalizing buf out with
  | zero => exact le_rfl
  | succ k ih =>
    cases he : rxStep buf with
    | none => simp [runLoop, he]
    | some p =>
      obtain ⟨_, n, hp, _⟩ := rxStep_drops he
      simpa [runLoop, he] using (ih p.1 _).trans (by simp [hp])

theorem feedBytes_cons (b : Byte) (bs : List Byte) (buf : Block) : feedBytes (b :: bs) buf =
    ((feedByte b buf).1 :: (feedBytes bs (feedByte b buf).2).1, (feedBytes bs (feedByte b buf).2).2) := rfl

/-- FEEDs in turn return one list each. -/
theorem feedBytes_length (bs : List Byte) (buf : Block) : (feedBytes bs buf).1.length = bs.length := by
  induction bs generalizing buf with
  | nil => rfl
  | cons b bs ih => simp [feedBytes_cons, ih]

theorem feedBytes_append (xs ys : List Byte) (buf : Block) : feedBytes (xs ++ ys) buf =
    ((feedBytes xs buf).1 ++ (feedBytes ys (feedBytes xs buf).2).1, (feedBytes ys (feedBytes xs buf).2).2) := by
  induction xs generalizing buf with
  | nil => rfl
  | cons x xs ih => simp [feedBytes_cons, ih]

/-- FEED and FEEDS change the buffer and add one result. -/
theorem exec_feed (b : Byte) (s : State) : exec (.feed b) s =
    .next (returnResult (.frames (feedByte b s.rxBuf).1) (setBuffer (feedByte b s.rxBuf).2 s)) := rfl

theorem exec_feeds (b : Byte) (bs : List Byte) (s : State) : exec (.feeds (b :: bs)) s =
    .next (returnResult (.frames (feedBytes (b :: bs) s.rxBuf).1.flatten)
      (setBuffer (feedBytes (b :: bs) s.rxBuf).2 s)) := rfl

/-- FEEDs in turn, as instructions. -/
theorem execSeq_feeds (bs : List Byte) (s : State) : execSeq (bs.map .feed) s = .next { s with
    rxBuf := (feedBytes bs s.rxBuf).2
    host.results := s.host.results ++ (feedBytes bs s.rxBuf).1.map .frames } := by
  induction bs generalizing s with
  | nil => simp [execSeq, feedBytes]
  | cons b bs ih => simp [execSeq, exec_feed, ih, feedBytes_cons, returnResult, setBuffer]

/-- Inside a FEED a step is one pass of its loop, the requests held. -/
theorem step_of_rxStep {s : State} {buf : Block} {f : Option Frame} (h : rxStep s.rxBuf = some (buf, f)) :
    step s = .next { s with
      rxBuf := buf
      host.results := s.host.results ++ f.toList.map fun g => .frames [g] } := by
  have hq : ¬ Quiescent s.rxBuf := by rw [quiescent_iff_stops, h]; simp
  rw [step, fetch, if_neg hq]
  cases hk : selectStep s.rxBuf <;> simp [rxStep, hk] at h <;> obtain ⟨rfl, rfl⟩ := h <;>
    simp [fetchMicroStep, hk, RxStep.instr, exec, execHdrMiss, execEmit, execCkfail, chosenStep_of_chosen _ hk,
      setBuffer, returnResult]

end Sys2Proof.Machine
end

