-- ==== Sys2Proof/Machine/Text.lean ====
section
/-! DEFINITION. The mnemonic syntax of 30_encoding R78 and R79, as text; no rule of the block depends on it. -/

namespace Sys2Proof.Machine

/-- A hexadecimal digit; `0` for a number over 15, which no byte's digit is: DESIGN CHOICE, log entry 24. -/
def hexDigit (n : Nat) : Char :=
  ['0', '1', '2', '3', '4', '5', '6', '7', '8', '9', 'A', 'B', 'C', 'D', 'E', 'F'].getD n '0'

/-- A byte in the `0x` form. -/
def hexByte (b : Byte) : String :=
  String.ofList ['0', 'x', hexDigit (b.toNat / 16), hexDigit (b.toNat % 16)]

/-- Bytes separated by a comma and a space. -/
def hexBytes : List Byte → String
  | [] => ""
  | [b] => hexByte b
  | b :: b' :: bs => hexByte b ++ ", " ++ hexBytes (b' :: bs)

/-- A byte sequence operand. -/
def hexList (bs : List Byte) : String := "[" ++ hexBytes bs ++ "]"

/-- One line of a program; the reserved bytes and the micro-steps have no line of their own (30_encoding R78).
A term that is not well-formed gets the line of its operands as they are: DESIGN CHOICE, log entry 24. -/
def asmLine : Instr → Option String
  | .reset => some "RESET"
  | .feed b => some ("FEED " ++ hexByte b)
  | .encode cmd p => some ("ENCODE " ++ hexByte cmd ++ ", " ++ hexList p)
  | .validate c => some ("VALIDATE " ++ hexList c)
  | .reserved => none
  | .reservedHigh _ => none
  | .feeds bs => some ("FEEDS " ++ hexList bs)
  | .short => none
  | .hdrMiss => none
  | .stall => none
  | .emit => none
  | .ckfail => none

end Sys2Proof.Machine
end

