-- ==== Sys2Proof/Tests/Slice0.lean ====
section
/-! SUPPORT. Small tests, their expected results taken from spec/ (95_test_vectors unless another file is named), and the
witnesses of the statements' hypotheses. The bytes are written out as the vectors have them, so the tests rest on the
values `test_values` names (00_scope R8). -/

namespace Sys2Proof.Tests

open Sys2Proof Sys2Proof.Machine

/-! Helpers. -/

/-- The next state of an outcome. -/
def nextOf : Host.Outcome State Fault Refusal → Option State
  | .next t => some t
  | .fault _ => none
  | .refused _ => none

/-- The refusal of an outcome. -/
def refusalOf : Host.Outcome State Fault Refusal → Option Refusal
  | .next _ => none
  | .fault _ => none
  | .refused r => some r

/-- A buffer, nothing pending and nothing returned. -/
def holding (buf : Block) : State := { State.reset with rxBuf := buf }

/-- The empty buffer, with pending requests. -/
def pending (reqs : List Byte) : State := { State.reset with host.requests := reqs }

/-- `A5 5E 02 10 01 02 18`, the frame of V-EN1. -/
def frame1 : List Byte := [0xA5#8, 0x5E#8, 0x02#8, 0x10#8, 0x01#8, 0x02#8, 0x18#8]

/-- Its record. -/
def record1 : Frame where
  lead1 := 0xA5#8
  lead2 := 0x5E#8
  length := 0x02#8
  command := 0x10#8
  payload := [0x01#8, 0x02#8]
  checksum := 0x18#8

/-- `A5 5E 00 00 03`, the frame of V-EN2. -/
def frame0 : List Byte := [0xA5#8, 0x5E#8, 0x00#8, 0x00#8, 0x03#8]

/-! Well-formedness: every check refuses an ill-formed term (40_codec R81, R84; 30_encoding R75). -/

theorem test_wf_encode_long : (Instr.encode 0x10#8 (List.replicate 256 0#8)).wf = false := by decide +kernel
theorem test_wf_encode_longest : (Instr.encode 0x10#8 (List.replicate 255 0#8)).wf = true := by decide +kernel
theorem test_wf_validate_short : (Instr.validate [0xA5#8, 0x5E#8, 0#8, 0#8]).wf = false := by decide
theorem test_wf_validate_long : (Instr.validate (List.replicate 261 0#8)).wf = false := by decide +kernel
theorem test_wf_reservedHigh_is_validate : (Instr.reservedHigh 0x04#8).wf = false := by decide

/-! Decoding, the words bit by bit from 30_encoding R74 and the opcode table. -/

theorem test_decode_reset : decode [0b00000001#8] = .ok .reset [] := by decide
theorem test_decode_feed : decode [0b00000010#8, 0b10100101#8] = .ok (.feed 0xA5#8) [] := by decide
theorem test_decode_encode :
    decode [0b00000011#8, 0b00010000#8, 0b00000010#8, 0b00000001#8, 0b00000010#8, 0b00000001#8] =
      .ok (.encode 0x10#8 [0x01#8, 0x02#8]) [0x01#8] := by decide
theorem test_decode_validate : decode ([0b00000100#8, 0b00000010#8] ++ frame1) = .ok (.validate frame1) [] := by decide
theorem test_decode_reserved : decode [0b00000000#8] = .ok .reserved [] := by decide
theorem test_decode_reservedHigh : decode [0b00000101#8] = .ok (.reservedHigh 0x05#8) [] := by decide
theorem test_decode_truncated : decode [0x03#8, 0x10#8, 0x02#8, 0x01#8] = .truncated 0x03#8 4 := by decide
theorem test_encode_feeds : encode (.feeds [0xA5#8, 0x5E#8]) = [0x02#8, 0xA5#8, 0x02#8, 0x5E#8] := by decide

/-! The choice of the micro-step on the buffers of V-RX4, V-RX5 and V-RX7 (41_reassembler R101). -/

theorem test_choose_short : selectStep (frame1.take 6) = .short := by decide
theorem test_choose_hdrMiss : selectStep (List.replicate 7 0#8) = .hdrMiss := by decide
theorem test_choose_stall :
    selectStep [0xA5#8, 0x5E#8, 0x03#8, 0x10#8, 0xA5#8, 0x5E#8, 0xFF#8] = .stall := by decide
theorem test_choose_emit : selectStep frame1 = .emit := by decide
theorem test_choose_ckfail : selectStep (frame1.take 6 ++ [0x19#8]) = .ckfail := by decide

/-! Table words: the row's own bits, zeros above. -/

theorem test_word_reset : decodeTableWord 8 1 = some .reset := by decide
theorem test_word_feed : decodeTableWord 16 0xA502 = some (.feed 0xA5#8) := by decide
theorem test_word_encode : decodeTableWord 8 3 = some (.encode 0#8 []) := by decide
theorem test_word_validate : decodeTableWord 8 4 = some (.validate (List.replicate 5 0#8)) := by decide
theorem test_word_reserved : decodeTableWord 8 0 = some .reserved := by decide
theorem test_word_front : decodeTableWord 16 0xA55E = some .ckfail := by decide
theorem test_word_runs_first :
    nextOf (step (State.reset.withFetchWord 8 4)) =
      some { State.reset with host.results := [.validated true 0x00#8] } := by decide
theorem test_word_front_runs_first :
    nextOf (step (State.reset.withFetchWord 16 0xA55E)) = some (holding (List.replicate 5 0#8)) := by decide

/-- A front word of no bits: SHORT runs, whatever was pending. -/
theorem test_word_short_runs_first : nextOf (step ((pending [0x02#8, 0xA5#8]).withFetchWord 0 0)) = some State.reset := by
  decide
/-- A request placed on a buffer inside a FEED runs next. -/
theorem test_word_request_inside_a_feed : nextOf (step ((holding frame1).withFetchWord 8 1)) = some State.reset := by
  decide

/-! The operations. -/

/-- V-EN1. -/
theorem test_encode_frame : nextOf (exec (.encode 0x10#8 [0x01#8, 0x02#8]) State.reset) =
    some { State.reset with host.results := [.encoded frame1] } := by decide
/-- V-EN4: the sum wraps. -/
theorem test_encode_wraps : encodeFrame 0xFF#8 [0xFF#8, 0xFF#8, 0xFF#8] =
    [0xA5#8, 0x5E#8, 0x03#8, 0xFF#8, 0xFF#8, 0xFF#8, 0xFF#8, 0x02#8] := by decide
/-- V-EN10. -/
theorem test_encode_too_long : refusalOf (exec (.encode 0x10#8 (List.replicate 256 0#8)) State.reset) =
    some (.encodeTooLong 256) := by decide +kernel
/-- V-VA2. -/
theorem test_validate_mismatch : nextOf (exec (.validate (frame1.take 6 ++ [0x19#8])) State.reset) =
    some { State.reset with host.results := [.validated false 0x18#8] } := by decide
/-- V-VA6. -/
theorem test_validate_bad_length : refusalOf (exec (.validate [0xA5#8, 0x5E#8, 0#8, 0#8]) State.reset) =
    some (.validateBadLength 4) := by decide
/-- V-RS1. -/
theorem test_reset_empties :
    nextOf (exec .reset (holding ([0xA5#8, 0x5E#8, 0xFF#8, 0x19#8] ++ frame1))) = some State.reset := by decide
/-- V-RS3. -/
theorem test_reserved_refused :
    refusalOf (step { holding [0xA5#8, 0x5E#8, 0x02#8] with host.requests := [0x00#8] }) = some (.reservedOp 0x00#8) := by decide
/-- V-RS5. -/
theorem test_reservedHigh_refused : refusalOf (step (pending [0xFF#8])) = some (.reservedOp 0xFF#8) := by decide
/-- V-RS6. -/
theorem test_truncated_refused :
    refusalOf (step (pending [0x03#8, 0x10#8, 0x02#8, 0x01#8])) = some (.truncatedRequest 0x03#8 4) := by decide
/-- V-RX1, its last FEED. -/
theorem test_feed_emits : nextOf (exec (.feed 0x18#8) (holding (frame1.take 6))) =
    some { State.reset with host.results := [.frames [record1]] } := by decide
/-- V-RX11: one FEED returns two frames. -/
theorem test_feed_two_frames :
    nextOf (exec (.feed 0xB6#8) (holding ([0xA5#8, 0x5E#8, 0x0E#8, 0x44#8] ++ frame1 ++ frame1))) =
      some { holding [0xB6#8] with host.results := [.frames [record1, record1]] } := by decide
/-- V-RX3 from its sixth byte on: a frame without payload waits for the seventh byte. -/
theorem test_feeds_short_frame : nextOf (exec (.feeds [0x00#8, 0x00#8]) (holding frame0)) =
    some { holding [0x00#8, 0x00#8] with host.results := [.frames [frameOf frame0]] } := by decide
/-- 30_encoding R79. -/
theorem test_feeds_empty : nextOf (exec (.feeds []) (holding frame0)) = some (holding frame0) := by decide
/-- The micro-steps of V-RX10's fourth FEED: CKFAIL drops two bytes. -/
theorem test_ckfail :
    nextOf (exec .ckfail (holding
      [0xA5#8, 0x5E#8, 0x05#8, 0x44#8, 0xA5#8, 0x5E#8, 0x00#8, 0x00#8, 0x03#8, 0x59#8])) =
      some (holding [0x05#8, 0x44#8, 0xA5#8, 0x5E#8, 0x00#8, 0x00#8, 0x03#8, 0x59#8]) := by decide
/-- V-RX8: `A5 A5` loses only its first byte. -/
theorem test_hdrMiss :
    nextOf (exec .hdrMiss (holding [0xA5#8, 0xA5#8, 0x5E#8, 0x02#8, 0x10#8, 0x01#8, 0x02#8])) =
      some (holding (frame1.take 6)) := by decide
/-- V-RX1: EMIT takes the whole candidate. -/
theorem test_emit : nextOf (exec .emit (holding frame1)) =
    some { State.reset with host.results := [.frames [record1]] } := by decide
/-- V-RX7: SHORT discards nothing. -/
theorem test_short : nextOf (exec .short (holding (List.replicate 6 0#8))) =
    some (holding (List.replicate 6 0#8)) := by decide
/-- V-RX5: STALL discards nothing. -/
theorem test_stall :
    nextOf (exec .stall (holding [0xA5#8, 0x5E#8, 0x03#8, 0x10#8, 0xA5#8, 0x5E#8, 0xFF#8])) =
      some (holding [0xA5#8, 0x5E#8, 0x03#8, 0x10#8, 0xA5#8, 0x5E#8, 0xFF#8]) := by decide
/-- 41_reassembler R101: SHORT comes before every other step. -/
theorem test_hdrMiss_not_chosen :
    refusalOf (exec .hdrMiss (holding (List.replicate 6 0#8))) = some (.stepNotChosen .hdrMiss) := by decide
/-- 30_encoding R78. -/
theorem test_asm : asmLine (.encode 0x10#8 [0x01#8, 0x02#8]) = some "ENCODE 0x10, [0x01, 0x02]" := by decide
/-- V-EN8: a DevRead request's payload is laid out little-endian; here `memoryAddr = 0x0002`. -/
theorem test_payload : (devRequest 0x00#8 0x01#8 0x0002#16 0x3F800000#32) =
    [0x00#8, 0x01#8, 0x02#8, 0x00#8, 0x00#8, 0x00#8, 0x80#8, 0x3F#8] := by decide
/-- 00_scope R7: the values the bytes and lengths written out in these tests stand for (R8). -/
theorem test_values : Config.lead1 = 0xA5#8 ∧ Config.lead2 = 0x5E#8 ∧ Config.minScan = 7 ∧
    Config.discardHdrMiss = 1 ∧ Config.discardCksFail = 2 := by decide
/-- 00_scope R7: a byte has the width of the length, command and checksum fields. -/
theorem test_widths : Config.lenBits = 8 ∧ Config.cmdBits = 8 ∧ Config.cksBits = 8 ∧
    Config.maxFrame = Config.rxCap := by decide

/-! Witnesses: a state and operands that meet the hypotheses of the statement named. A statement that is not named here
has no hypothesis. -/

/-- Both ways a buffer is quiescent, the second at its longest: BufferNeverPassesItsCapacity, FeedListIsInStreamOrder,
FeedingInPiecesAgrees. -/
theorem witness_quiescent_buffers : Quiescent (holding (List.replicate 6 0#8)).rxBuf ∧
    Quiescent (0xA5#8 :: 0x5E#8 :: 0xFF#8 :: List.replicate 256 0#8) ∧
    (0xA5#8 :: 0x5E#8 :: 0xFF#8 :: List.replicate 256 (0#8 : Byte)).length = 259 := by decide +kernel

/-- The three ways a buffer is not: StepRunsTheChosenMicroStep (whose step then answers a next state),
RequestsAreHeldDuringAFeed, the first clause of AcceptedOperationsComplete. -/
theorem witness_buffers_inside_a_feed : ¬ Quiescent (holding (List.replicate 7 0#8)).rxBuf ∧ ¬ Quiescent frame1 ∧
    ¬ Quiescent (frame1.take 6 ++ [0x19#8]) ∧
    nextOf (step (holding (List.replicate 7 0#8))) = some (holding (List.replicate 6 0#8)) := by decide

/-- The lowest, the least of the high ones and the last. -/
theorem witness_ReservedOperationBytesAreRefused :
    (0x00#8 = 0x00#8 ∨ 0x05#8 ≤ 0x00#8) ∧ (0x05#8 = 0x00#8 ∨ 0x05#8 ≤ 0x05#8) ∧ (0xFF#8 = 0x00#8 ∨ 0x05#8 ≤ 0xFF#8) ∧
      Quiescent (pending [0x05#8, 0x01#8]).rxBuf ∧ (pending [0x05#8, 0x01#8]).host.requests = 0x05#8 :: [0x01#8] := by
  decide

/-- Both branches, at the boundary; also EncodedFrameHasTheWireLayout, EncodedFrameValidates and
SideEffectsAndIdempotency (the empty and the longest payload), and LongPayloadIsRefusedAndNotExpressible. -/
theorem witness_EncodeReturnsTheFrame : ([] : List Byte).length ≤ Config.maxPayload ∧
    (List.replicate 255 (0#8 : Byte)).length ≤ Config.maxPayload ∧
    ¬ (List.replicate 256 (0#8 : Byte)).length ≤ Config.maxPayload ∧
    Config.maxPayload < (List.replicate 256 (0#8 : Byte)).length := by decide +kernel

/-- Both branches, at both boundaries. -/
theorem witness_ValidateComparesTheChecksum :
    (Config.overhead ≤ frame0.length ∧ frame0.length ≤ Config.maxFrame) ∧
      frame0 = [0xA5#8, 0x5E#8, 0x00#8, 0x00#8] ++ [0x03#8] ∧
      (Config.overhead ≤ (List.replicate 260 (0#8 : Byte)).length ∧
        (List.replicate 260 (0#8 : Byte)).length ≤ Config.maxFrame) ∧
      ¬ (Config.overhead ≤ (List.replicate 4 (0#8 : Byte)).length ∧
        (List.replicate 4 (0#8 : Byte)).length ≤ Config.maxFrame) ∧
      ¬ (Config.overhead ≤ (List.replicate 261 (0#8 : Byte)).length ∧
        (List.replicate 261 (0#8 : Byte)).length ≤ Config.maxFrame) := by decide +kernel

/-- The first and the last byte changed; two bytes exchanged, and a byte with itself. -/
theorem witness_ChecksumFindsOneByteMissesExchange : ValidFrame frame1 ∧
    (0 < frame1.length ∧ 0xA4#8 ≠ byteAt frame1 0) ∧ (6 < frame1.length ∧ 0x19#8 ≠ byteAt frame1 6) ∧
    (0 < frame1.length - 1 ∧ 5 < frame1.length - 1) := by decide

/-- RequestsDecodeBack and DecodedRequestsEncodeBack. -/
theorem witness_RequestsDecodeBack : (Instr.encode 0x10#8 [0x01#8, 0x02#8]).wf = true ∧
    (Instr.encode 0x10#8 [0x01#8, 0x02#8]).isRequest = true ∧
    decode [0x03#8, 0x10#8, 0x02#8, 0x01#8, 0x02#8] = .ok (.encode 0x10#8 [0x01#8, 0x02#8]) [] := by decide

theorem witness_TruncatedRequestIsRefused :
    (Instr.encode 0x10#8 [0x01#8, 0x02#8]).wf = true ∧ (Instr.encode 0x10#8 [0x01#8, 0x02#8]).isRequest = true ∧
      encode (.encode 0x10#8 [0x01#8, 0x02#8]) = 0x03#8 :: [0x10#8, 0x02#8, 0x01#8] ++ [0x02#8] ∧ [0x02#8] ≠ [] ∧
      Quiescent (pending [0x03#8, 0x10#8, 0x02#8, 0x01#8]).rxBuf ∧
      (pending [0x03#8, 0x10#8, 0x02#8, 0x01#8]).host.requests = 0x03#8 :: [0x10#8, 0x02#8, 0x01#8] := by decide

theorem witness_StepRunsTheDecodedRequest : Quiescent (pending [0x02#8, 0xA5#8, 0x01#8]).rxBuf ∧
    decode (pending [0x02#8, 0xA5#8, 0x01#8]).host.requests = .ok (.feed 0xA5#8) [0x01#8] := by decide

theorem witness_IdleStepHoldsTheState : Quiescent (holding frame0).rxBuf ∧ (holding frame0).host.requests = [] := by
  decide

/-- The last two clauses of MicroStepIsChosenInOrder have hypotheses that a removing choice meets. -/
theorem witness_MicroStepIsChosenInOrder : selectStep frame1 ≠ .short ∧ selectStep frame1 ≠ .stall := by decide

/-- The empty buffer, the longest a FEED leaves short, and the longest short one. -/
theorem witness_ShortDiscardsNothing : (holding []).rxBuf.length < Config.minScan ∧
    (holding frame0).rxBuf.length + 1 < Config.minScan ∧
    (holding (frame1.take 6)).rxBuf.length < Config.minScan := by decide

/-- Seven bytes, the fewest; each of the two bytes wrong alone. -/
theorem witness_HdrMissDropsOneByte :
    (holding (0x00#8 :: 0x5E#8 :: List.replicate 5 0#8)).rxBuf = 0x00#8 :: 0x5E#8 :: List.replicate 5 0#8 ∧
      Config.minScan ≤ (List.replicate 5 (0#8 : Byte)).length + 2 ∧
      ((0x00#8 : Byte) ≠ Config.lead1 ∨ (0x5E#8 : Byte) ≠ Config.lead2) ∧
      ((0xA5#8 : Byte) ≠ Config.lead1 ∨ (0xA5#8 : Byte) ≠ Config.lead2) := by decide

/-- One byte missing, and as many as can be. -/
theorem witness_StallDiscardsNothing :
    (holding (0xA5#8 :: 0x5E#8 :: 0x03#8 :: List.replicate 4 0#8)).rxBuf =
        Config.lead1 :: Config.lead2 :: 0x03#8 :: List.replicate 4 0#8 ∧
      Config.minScan ≤ (0xA5#8 :: 0x5E#8 :: 0x03#8 :: List.replicate 4 (0#8 : Byte)).length ∧
      (0x03#8 : Byte).toNat + Config.overhead > (0xA5#8 :: 0x5E#8 :: 0x03#8 :: List.replicate 4 (0#8 : Byte)).length ∧
      (0xFF#8 : Byte).toNat + Config.overhead > (0xA5#8 :: 0x5E#8 :: 0xFF#8 :: List.replicate 4 (0#8 : Byte)).length := by
  decide

/-- EmitTakesTheCandidate and EmitAloneReturnsItsRecord on V-RX1's buffer, CkfailDropsTwoBytes on V-RX4's. -/
theorem witness_complete_candidates :
    [(0x01#8 : Byte), 0x02#8].length = (0x02#8 : Byte).toNat ∧
      (holding frame1).rxBuf = [Config.lead1, Config.lead2, 0x02#8, 0x10#8] ++ [0x01#8, 0x02#8] ++ [0x18#8] ++ [] ∧
      Config.minScan ≤ frame1.length ∧
      cks ([Config.lead1, Config.lead2, 0x02#8, 0x10#8] ++ [0x01#8, 0x02#8]) = 0x18#8 ∧
      cks ([Config.lead1, Config.lead2, 0x02#8, 0x10#8] ++ [0x01#8, 0x02#8]) ≠ 0x19#8 := by decide

/-- A micro-step before the chosen one in R101's order, and one after it. -/
theorem witness_UnchosenMicroStepIsRefused : selectStep (holding frame1).rxBuf ≠ .ckfail ∧
    selectStep (holding frame1).rxBuf ≠ .short := by decide

/-- The first and the last clause of EveryFeedEnds, the last at 260 bytes. -/
theorem witness_EveryFeedEnds : (RxStep.ckfail ≠ .short ∧ RxStep.ckfail ≠ .stall) ∧
    nextOf (exec RxStep.ckfail.instr (holding (frame1.take 6 ++ [0x19#8]))) =
      some (holding ((frame1.take 6 ++ [0x19#8]).drop 2)) ∧
    (List.replicate 259 (0#8 : Byte)).length + 1 ≤ Config.rxCap := by decide +kernel

/-- The second clause of FeedingInPiecesAgrees. -/
theorem witness_drains : Drains ([] ++ [0xA5#8]) [] [0xA5#8] ∧ Drains ([0xA5#8] ++ [0x5E#8]) [] [0xA5#8, 0x5E#8] :=
  ⟨.short (by decide), .short (by decide)⟩

/-- BufferIsAQueue (first clause) and InstructionFrame; RESET for its second clause. -/
theorem witness_exec_next : nextOf (exec (.feed 0x18#8) (holding (frame1.take 6))) =
    some { State.reset with host.results := [.frames [record1]] } ∧
    nextOf (exec .reset (holding frame0)) = some State.reset := by decide

theorem witness_FeedsStandsForFeedsInTurn : [(0xA5#8 : Byte)] ≠ [] := by decide

/-- The shortest frame that is prompt, and V-RX1's. -/
theorem witness_AlignedFrameIsReturnedAtItsLastByte : State.reset.rxBuf = [] ∧
    ValidFrame frame1 ∧ Config.minScan ≤ (byteAt frame1 2).toNat + Config.overhead := by decide

/-- Both lengths of a short frame. -/
theorem witness_ShortFrameWaitsForSevenBytes : State.reset.rxBuf = [] ∧
    (ValidFrame frame0 ∧ (byteAt frame0 2).toNat + Config.overhead < Config.minScan ∧
      [(0x00#8 : Byte), 0x00#8].length = Config.minScan - ((byteAt frame0 2).toNat + Config.overhead)) ∧
    (ValidFrame (encodeFrame 0x00#8 [0x07#8]) ∧
      (byteAt (encodeFrame 0x00#8 [0x07#8]) 2).toNat + Config.overhead < Config.minScan ∧
      [(0x00#8 : Byte)].length =
        Config.minScan - ((byteAt (encodeFrame 0x00#8 [0x07#8]) 2).toNat + Config.overhead)) := by
  decide

/-- Garbage that ends in `A5`, right before the frame (V-RX8), and no garbage. -/
theorem witness_GarbageIsDroppedByteByByte : State.reset.rxBuf = [] ∧
    NoSyncPair [0xA5#8] ∧ NoSyncPair [] ∧ ValidFrame frame1 ∧
    Config.minScan ≤ (byteAt frame1 2).toNat + Config.overhead :=
  ⟨rfl, fun i h => absurd h (by simp), fun i h => absurd h (by simp), by decide, by decide⟩

theorem noSyncPair_of_failed1 : NoSyncPair ((frame1.take 6 ++ [0x19#8]).drop Config.discardCksFail) := by
  intro i h
  have hi : i < 4 := by
    have : ((frame1.take 6 ++ [0x19#8]).drop Config.discardCksFail).length = 5 := by decide
    omega
  interval_cases i <;> decide

/-- V-RX4. -/
theorem witness_FrameAfterAFailedCandidateIsFound :
    (frame1.take 6 ++ [0x19#8]).length = (byteAt (frame1.take 6 ++ [0x19#8]) 2).toNat + Config.overhead ∧
      byteAt (frame1.take 6 ++ [0x19#8]) 0 = Config.lead1 ∧ byteAt (frame1.take 6 ++ [0x19#8]) 1 = Config.lead2 ∧
      cks (slice (frame1.take 6 ++ [0x19#8]) 0 ((frame1.take 6 ++ [0x19#8]).length - 1)) ≠
        byteAt (frame1.take 6 ++ [0x19#8]) ((frame1.take 6 ++ [0x19#8]).length - 1) ∧
      NoSyncPair ((frame1.take 6 ++ [0x19#8]).drop Config.discardCksFail) ∧ ValidFrame frame1 ∧
      Config.minScan ≤ (byteAt frame1 2).toNat + Config.overhead ∧ State.reset.rxBuf = [] :=
  ⟨by decide, by decide, by decide, by decide, noSyncPair_of_failed1, by decide, by decide, rfl⟩

/-- V-RX5's stalled buffer, and a byte behind it. -/
theorem witness_StallHoldsEverythingBehindIt :
    Config.minScan ≤ (holding ([0xA5#8, 0x5E#8, 0xFF#8, 0x19#8] ++ frame1)).rxBuf.length ∧
      byteAt ([0xA5#8, 0x5E#8, 0xFF#8, 0x19#8] ++ frame1) 0 = Config.lead1 ∧
      byteAt ([0xA5#8, 0x5E#8, 0xFF#8, 0x19#8] ++ frame1) 1 = Config.lead2 ∧
      ([0xA5#8, 0x5E#8, 0xFF#8, 0x19#8] ++ frame1).length + [(0x00#8 : Byte)].length <
        (byteAt ([0xA5#8, 0x5E#8, 0xFF#8, 0x19#8] ++ frame1) 2).toNat + Config.overhead := by decide

/-- EncodeThenFeedRoundTrips: payloads of 0, 1, 2 and 255 bytes; LoneRuleDownResponseIsHeld. -/
theorem witness_EncodeThenFeedRoundTrips : State.reset.rxBuf = [] ∧
    ([] : List Byte).length + Config.overhead < Config.minScan ∧
    [(0x07#8 : Byte)].length + Config.overhead < Config.minScan ∧
    Config.minScan ≤ [(0x01#8 : Byte), 0x02#8].length + Config.overhead ∧
    (List.replicate 255 (0#8 : Byte)).length ≤ Config.maxPayload ∧
    [(0x00#8 : Byte), 0x00#8].length = Config.minScan - (([] : List Byte).length + Config.overhead) := by decide +kernel

/-- The second and third ways into the first clause, and the last clause. -/
theorem witness_AcceptedOperationsComplete : (pending []).host.requests = [] ∧
    (decode (pending [0x01#8]).host.requests = .ok .reset [] ∧ hostIssued .reset = true) ∧
    (Instr.validate frame0).wf = true ∧ hostIssued (.validate frame0) = true := by decide

theorem witness_TransmitAndReceiveAreIndependent : (Instr.encode 0x10#8 [0x01#8, 0x02#8]).wf = true ∧
    (Instr.validate frame0).wf = true := by decide

/-- A quiescent buffer with a request, and a buffer inside a FEED. -/
theorem witness_InvariantIsKept : Inv (pending [0x02#8, 0xA5#8]) ∧ Quiescent (pending [0x02#8, 0xA5#8]).rxBuf ∧
    nextOf (step (pending [0x02#8, 0xA5#8])) = some { holding [0xA5#8] with host.results := [.frames []] } ∧
    Inv (holding frame1) ∧ nextOf (step (holding frame1)) =
      some { State.reset with host.results := [.frames [record1]] } :=
  ⟨⟨by decide, fun f h => absurd h (by simp [pending, State.reset, returnedFrames])⟩, by decide, by decide,
    ⟨by decide, fun f h => absurd h (by simp [holding, State.reset, returnedFrames])⟩, by decide⟩

theorem witness_PayloadFieldsStandAtTheirOffsets : (List.replicate 255 (0#8 : Byte)).length ≤ 255 := by decide +kernel

end Sys2Proof.Tests
end

/-! The receive buffer is a queue (10_state R21): the loop and the micro-steps drop bytes at its front, FEED and FEEDS
append at its end, and every other instruction that runs leaves it or empties it. -/

namespace Sys2Proof.Machine

/-- Whatever the loop does in `k` passes, what it leaves is the end of what it started on. -/
theorem runLoop_suffix (k : Nat) (buf : Block) (out : List Frame) :
    List.IsSuffix (runLoop k buf out).2 buf := by
  induction k generalizing buf out with
  | zero => exact List.suffix_refl buf
  | succ k ih =>
    cases he : rxStep buf with
    | none => simp [runLoop, he]
    | some p =>
      obtain ⟨_, n, hp, _⟩ := rxStep_drops he
      have hd : List.IsSuffix p.1 buf := hp ▸ List.drop_suffix n buf
      simpa [runLoop, he] using (ih p.1 (out ++ p.2.toList)).trans hd

theorem feedByte_suffix (b : Byte) (buf : Block) : List.IsSuffix (feedByte b buf).2 (buf ++ [b]) :=
  runLoop_suffix (buf.length + 1) (bufAppend b buf) []

theorem feedBytes_suffix (bs : List Byte) (buf : Block) : List.IsSuffix (feedBytes bs buf).2 (buf ++ bs) := by
  induction bs generalizing buf with
  | nil => simp [feedBytes]
  | cons b bs ih =>
    have hb : List.IsSuffix ((feedByte b buf).2 ++ bs) (buf ++ [b] ++ bs) :=
      List.suffix_append_self_iff.mpr (feedByte_suffix b buf)
    simpa [feedBytes_cons] using (ih (feedByte b buf).2).trans hb

/-- All ENCODE can answer with a next state. -/
theorem execEncode_next {cmd : Byte} {p : List Byte} {s t : State} (h : execEncode cmd p s = .next t) :
    p.length ≤ Config.maxPayload ∧ t = returnResult (.encoded (encodeFrame cmd p)) s := by
  unfold execEncode at h
  split at h
  · cases h
  · next hp => cases h; exact ⟨Nat.le_of_not_lt hp, rfl⟩

/-- All VALIDATE can answer with a next state. -/
theorem execValidate_next {c : List Byte} {s t : State} (h : execValidate c s = .next t) :
    (Config.overhead ≤ c.length ∧ c.length ≤ Config.maxFrame) ∧
      t = returnResult (.validated (candidateOk c) (candidateCks c)) s := by
  unfold execValidate at h
  split at h
  · cases h
  · next hc => cases h; exact ⟨by omega, rfl⟩

/-- FEEDS, of no byte too, leaves the buffer its FEEDs in turn leave. -/
theorem execFeeds_next_rxBuf {bs : List Byte} {s t : State} (h : execFeeds bs s = .next t) :
    t.rxBuf = (feedBytes bs s.rxBuf).2 := by
  cases bs with
  | nil => cases h; rfl
  | cons b bs => cases h; rfl

/-- A micro-step whose effect keeps an end of the buffer does so wherever it runs. -/
theorem chosenStep_suffix {k : RxStep} {s t u : State} (h : chosenStep k s t = .next u)
    (ht : List.IsSuffix t.rxBuf s.rxBuf) : List.IsSuffix u.rxBuf s.rxBuf :=
  (chosenStep_next h).2 ▸ ht

/-- The queue discipline, instruction by instruction (10_state R21). -/
theorem exec_rxBuf_suffix {i : Instr} {s t : State} (h : exec i s = .next t) :
    List.IsSuffix t.rxBuf (s.rxBuf ++ appended i) := by
  cases i with
  | reset => cases h; exact List.nil_suffix
  | feed b => cases h; exact feedByte_suffix b s.rxBuf
  | encode cmd p =>
    obtain ⟨-, rfl⟩ := execEncode_next h
    simp [appended]
  | validate c =>
    obtain ⟨-, rfl⟩ := execValidate_next h
    simp [appended]
  | reserved => cases h
  | reservedHigh op => cases h
  | feeds bs => exact execFeeds_next_rxBuf h ▸ feedBytes_suffix bs s.rxBuf
  | short => simpa [appended] using chosenStep_suffix h (List.suffix_refl _)
  | hdrMiss => simpa [appended] using chosenStep_suffix h (bufDrop_suffix _ s.rxBuf)
  | stall => simpa [appended] using chosenStep_suffix h (List.suffix_refl _)
  | emit => simpa [appended] using chosenStep_suffix h (bufDrop_suffix _ s.rxBuf)
  | ckfail => simpa [appended] using chosenStep_suffix h (bufDrop_suffix _ s.rxBuf)

/-- RESET runs in every state (42_control R130). -/
theorem exec_reset (s : State) : exec .reset s = .next (setBuffer bufClear s) := rfl

/-- Settles O36, by the queue discipline of each instruction; RESET's next state holds the cleared buffer. -/
theorem bufferIsAQueue : Obligations.BufferIsAQueue := by
  unfold Obligations.BufferIsAQueue
  exact ⟨fun _ _ _ => exec_rxBuf_suffix, fun s => ⟨setBuffer bufClear s, exec_reset s, rfl⟩⟩

end Sys2Proof.Machine

/-! The order of operations (20_memory R49 to R51): a well-formed ENCODE or VALIDATE returns one result, whatever the
state, and leaves the buffer; what a FEED or RESET does depends on the buffer alone. So the two sides commute. -/

namespace Sys2Proof.Machine

/-- ENCODE of a payload of at most 255 bytes runs in every state (40_codec R81). -/
theorem exec_encode {p : List Byte} (hp : p.length ≤ Config.maxPayload) (cmd : Byte) (s : State) :
    exec (.encode cmd p) s = .next (returnResult (.encoded (encodeFrame cmd p)) s) :=
  if_neg (Nat.not_lt.mpr hp)

/-- VALIDATE of 5 to 260 bytes runs in every state (40_codec R84). -/
theorem exec_validate {c : List Byte} (hlo : Config.overhead ≤ c.length) (hhi : c.length ≤ Config.maxFrame)
    (s : State) : exec (.validate c) s = .next (returnResult (.validated (candidateOk c) (candidateCks c)) s) :=
  if_neg (not_or.mpr ⟨Nat.not_lt.mpr hlo, Nat.not_lt.mpr hhi⟩)

/-- A well-formed ENCODE or VALIDATE only returns its result, the same one in every state. -/
theorem exec_encode_or_validate {i : Instr} (hw : i.wf = true)
    (hi : (∃ cmd p, i = .encode cmd p) ∨ ∃ c, i = .validate c) :
    ∃ v : Result, ∀ s : State, exec i s = .next (returnResult v s) := by
  rcases hi with ⟨cmd, p, rfl⟩ | ⟨c, rfl⟩
  · exact ⟨_, exec_encode (of_decide_eq_true hw) cmd⟩
  · obtain ⟨hlo, hhi⟩ : Config.overhead ≤ c.length ∧ c.length ≤ Config.maxFrame := by simpa [Instr.wf] using hw
    exact ⟨_, exec_validate hlo hhi⟩

/-- The buffer a FEED or RESET leaves and the results it adds are a function of the buffer it finds. -/
theorem exec_feed_or_reset {j : Instr} (hj : (∃ b, j = .feed b) ∨ j = .reset) (buf : Block) :
    ∃ (r : Block) (out : List Result), ∀ h : HostSide, exec j { rxBuf := buf, host := h } =
      .next { rxBuf := r, host := { h with results := h.results ++ out } } := by
  rcases hj with ⟨b, rfl⟩ | rfl
  · exact ⟨(feedByte b buf).2, [.frames (feedByte b buf).1], fun h => exec_feed b ⟨buf, h⟩⟩
  · refine ⟨bufClear, [], fun h => ?_⟩
    simp [exec_reset, setBuffer]

/-- A sequence whose first operation runs goes on from the state it leaves (20_memory R50). -/
theorem execSeq_cons_of_next {i : Instr} {s t : State} (h : exec i s = .next t) (is : List Instr) :
    execSeq (i :: is) s = execSeq is t := by
  simp [execSeq, h]

/-- Two operations that run in turn leave the state the second leaves. -/
theorem execSeq_pair {i j : Instr} {s t : State} (h : exec i s = .next t) : execSeq [i, j] s = exec j t := by
  rw [execSeq_cons_of_next h]
  cases hj : exec j t <;> simp [execSeq, hj]

/-- A FEED whose append makes a quiescent buffer returns no record and keeps every byte (41_reassembler R110). -/
theorem feedByte_of_quiescent {b : Byte} {buf : Block} (h : Quiescent (buf ++ [b])) :
    feedByte b buf = ([], buf ++ [b]) := by
  have hn : rxStep (buf ++ [b]) = none := (quiescent_iff_stops _).mp h
  simp [feedByte, runLoop, bufAppend, hn]

/-- Settles O11: the results of ENCODE and VALIDATE name no state, RESET clears a cleared buffer, and the second of two
equal bytes fed after reset stays in the buffer beside the first, two bytes being too short to decide on. -/
theorem sideEffectsAndIdempotency : Obligations.SideEffectsAndIdempotency := by
  unfold Obligations.SideEffectsAndIdempotency
  refine ⟨fun cmd p hp => ⟨_, exec_encode hp cmd⟩, fun c hlo hhi => ⟨_, exec_validate hlo hhi⟩, fun s => ?_, ?_⟩
  · exact ⟨setBuffer bufClear s, exec_reset s, (execSeq_pair (exec_reset s)).trans (exec_reset _)⟩
  · have once : feedByte 0#8 [] = ([], [0#8]) := feedByte_of_quiescent (buf := []) (.inl (by decide))
    have twice : feedByte 0#8 [0#8] = ([], [0#8, 0#8]) := feedByte_of_quiescent (buf := [0#8]) (.inl (by decide))
    refine ⟨.reset, _, _, 0#8, execSeq_feeds [0#8] .reset, execSeq_feeds [0#8, 0#8] .reset, ?_⟩
    simp [feedBytes, State.reset, once, twice]

/-- Settles O49: the transmit side's result names no state, and the receive side reads the buffer alone, which the
transmit side leaves. -/
theorem transmitAndReceiveAreIndependent : Obligations.TransmitAndReceiveAreIndependent := by
  unfold Obligations.TransmitAndReceiveAreIndependent
  intro i hw hi
  obtain ⟨v, hv⟩ := exec_encode_or_validate hw hi
  refine ⟨v, fun j s hj => ?_⟩
  obtain ⟨r, out, hr⟩ := exec_feed_or_reset hj s.rxBuf
  have transmitFirst : execSeq [i, j] s = exec j (returnResult v s) := execSeq_pair (hv s)
  have receiveFirst := execSeq_pair (j := i) (hr s.host)
  exact ⟨r, out, hr s.host, transmitFirst.trans (hr _), receiveFirst.trans (hv _)⟩

end Sys2Proof.Machine

/-! What stands at each offset of an encoded frame (30_encoding R60, R65). -/

namespace Sys2Proof.Machine

theorem cks_toNat (s : List Byte) : (cks s).toNat = sumBytes s % 256 := BitVec.toNat_ofNat _ _

theorem byteAt_encodeFrame_lead1 (cmd : Byte) (p : List Byte) : byteAt (encodeFrame cmd p) 0 = Config.lead1 := rfl

theorem byteAt_encodeFrame_lead2 (cmd : Byte) (p : List Byte) : byteAt (encodeFrame cmd p) 1 = Config.lead2 := rfl

theorem byteAt_encodeFrame_command (cmd : Byte) (p : List Byte) : byteAt (encodeFrame cmd p) 3 = cmd := rfl

/-- The length field counts the payload of a frame that ENCODE does not refuse. -/
theorem byteAt_encodeFrame_length {p : List Byte} (hp : p.length ≤ Config.maxPayload) (cmd : Byte) :
    (byteAt (encodeFrame cmd p) 2).toNat = p.length :=
  (BitVec.toNat_ofNat _ _).trans (Nat.mod_eq_of_lt (Nat.lt_succ_of_le hp))

theorem byteAt_encodeFrame_payload (cmd : Byte) {p : List Byte} {i : Nat} (hi : i < p.length) :
    byteAt (encodeFrame cmd p) (4 + i) = byteAt p i := by
  have hbefore : 4 + i < (frameHead cmd p).length := by rw [frameHead_length]; omega
  rw [encodeFrame, byteAt_append_left _ hbefore, frameHead, byteAt_append_right _ (Nat.le_add_right 4 i)]
  exact congrArg (byteAt p) (Nat.add_sub_cancel_left 4 i)

/-- The bytes before the checksum field are the frame's head. -/
theorem slice_encodeFrame_head (cmd : Byte) (p : List Byte) :
    slice (encodeFrame cmd p) 0 (4 + p.length) = frameHead cmd p := by
  rw [slice_zero, encodeFrame, List.take_left' (by rw [frameHead_length, Nat.add_comm])]

theorem byteAt_encodeFrame_checksum (cmd : Byte) (p : List Byte) :
    byteAt (encodeFrame cmd p) (4 + p.length) = cks (slice (encodeFrame cmd p) 0 (4 + p.length)) := by
  have hend : 4 + p.length = (frameHead cmd p).length := by rw [frameHead_length, Nat.add_comm]
  rw [slice_encodeFrame_head, encodeFrame, hend, byteAt_append_right _ le_rfl, Nat.sub_self, byteAt_cons_zero]

/-- Settles O7, field by field on the frame ENCODE returns. -/
theorem encodedFrameHasTheWireLayout : Obligations.EncodedFrameHasTheWireLayout := by
  unfold Obligations.EncodedFrameHasTheWireLayout
  intro s cmd p hp
  have hsum : (byteAt (encodeFrame cmd p) (4 + p.length)).toNat =
      sumBytes (slice (encodeFrame cmd p) 0 (4 + p.length)) % 256 := by
    rw [byteAt_encodeFrame_checksum, cks_toNat]
  exact ⟨encodeFrame cmd p, exec_encode hp cmd s, encodeFrame_length cmd p, byteAt_encodeFrame_lead1 cmd p,
    byteAt_encodeFrame_lead2 cmd p, byteAt_encodeFrame_length hp cmd, byteAt_encodeFrame_command cmd p,
    fun _ => byteAt_encodeFrame_payload cmd, hsum⟩

end Sys2Proof.Machine

/-! The codec's checksum as a running sum (40_codec R80), what ENCODE and VALIDATE answer inside and outside their length
limits (R81 to R84), and that the request format expresses only operands within them (30_encoding R74, R76). -/

namespace Sys2Proof.Machine

/-- A running sum that starts at `b` ends at `b` and the checksum of what it ran over. -/
theorem foldl_add_eq_add_cks (s : List Byte) (b : Byte) : s.foldl (· + ·) b = b + cks s := by
  induction s generalizing b with
  | nil => exact (BitVec.add_zero b).symm
  | cons a s ih => rw [List.foldl_cons, ih, cks_cons, BitVec.add_assoc]

theorem cks_eq_foldl_add (s : List Byte) : cks s = s.foldl (· + ·) 0#8 := by
  rw [foldl_add_eq_add_cks, BitVec.zero_add]

/-- Settles O4: one reduction of the integer sum, and by induction the same as a sum that wraps at every byte. -/
theorem checksumIsTruncatedSum : Obligations.ChecksumIsTruncatedSum := by
  unfold Obligations.ChecksumIsTruncatedSum
  exact ⟨rfl, fun s => ⟨cks_toNat s, cks_eq_foldl_add s⟩⟩

theorem cks_eq_ofNat_mod (s : List Byte) : cks s = BitVec.ofNat 8 (sumBytes s % 256) :=
  BitVec.eq_of_toNat_eq (by rw [cks_toNat, BitVec.toNat_ofNat, Nat.mod_mod])

/-- The sum over a frame's head, its length field being the payload length. -/
theorem sumBytes_frameHead {p : List Byte} (hp : p.length ≤ Config.maxPayload) (cmd : Byte) :
    sumBytes (frameHead cmd p) =
      Config.lead1.toNat + Config.lead2.toNat + p.length + cmd.toNat + (p.map BitVec.toNat).sum := by
  have hlen : (BitVec.ofNat 8 p.length).toNat = p.length := byteAt_encodeFrame_length hp cmd
  have hnil : sumBytes [] = 0 := rfl
  have hpay : sumBytes p = (p.map BitVec.toNat).sum := rfl
  rw [frameHead, sumBytes_append]
  simp only [sumBytes_cons, hlen, hnil, hpay]
  omega

/-- ENCODE of a payload of more than 255 bytes is refused in every state (40_codec R82). -/
theorem exec_encode_tooLong {p : List Byte} (hp : Config.maxPayload < p.length) (cmd : Byte) (s : State) :
    exec (.encode cmd p) s = .refused (.encodeTooLong p.length) := if_pos hp

/-- Settles O5: the request is the encoder's, and the frame's last byte is the sum of its head. -/
theorem encodeReturnsTheFrame : Obligations.EncodeReturnsTheFrame := by
  unfold Obligations.EncodeReturnsTheFrame
  intro s cmd p
  split
  · next hp =>
    refine ⟨rfl, ?_⟩
    rw [exec_encode hp, encodeFrame, cks_eq_ofNat_mod, sumBytes_frameHead hp]
    rfl
  · next hp => exact exec_encode_tooLong (Nat.lt_of_not_le hp) cmd s

/-- A payload the decoder reads is as long as its length byte says. -/
theorem wf_of_decodeEncode {bs rest : List Byte} {i : Instr} (h : decodeEncode bs = .ok i rest) : i.wf = true := by
  match bs with
  | [] | [_] => cases h
  | cc :: ll :: t =>
    simp only [decodeEncode] at h
    split at h
    · cases h
    · cases h
      exact decide_eq_true ((List.length_take_le _ _).trans (Nat.le_of_lt_succ ll.isLt))

/-- A candidate the decoder reads has five bytes more than its length byte says. -/
theorem wf_of_decodeValidate {bs rest : List Byte} {i : Instr} (h : decodeValidate bs = .ok i rest) :
    i.wf = true := by
  match bs with
  | [] => cases h
  | ll :: t =>
    simp only [decodeValidate] at h
    split at h
    · cases h
    · next hlong =>
      cases h
      have hlen : (t.take (ll.toNat + Config.overhead)).length = ll.toNat + Config.overhead :=
        List.length_take_of_le (Nat.le_of_not_lt hlong)
      have hll : ll.toNat ≤ Config.maxPayload := Nat.le_of_lt_succ ll.isLt
      simp only [Instr.wf, hlen, Bool.and_eq_true, decide_eq_true_eq]
      exact ⟨Nat.le_add_left _ _, Nat.add_le_add_right hll _⟩

/-- Every request the decoder reads is well-formed (30_encoding R74 to R76). -/
theorem wf_of_decode {bs rest : List Byte} {i : Instr} (h : decode bs = .ok i rest) : i.wf = true := by
  match bs with
  | [] => cases h
  | op :: t =>
    simp only [decode] at h
    split_ifs at h with h1 h2 h3 h4 h0
    · cases h; rfl
    · cases t <;> cases h; rfl
    · exact wf_of_decodeEncode h
    · exact wf_of_decodeValidate h
    · cases h; rfl
    · cases h
      simp only [opReset, opFeed, opEncode, opValidate, opReserved] at h1 h2 h3 h4 h0
      exact decide_eq_true (by bv_omega)

/-- Settles O6: ENCODE's length test fails in every state, and a decoded ENCODE is well-formed. -/
theorem longPayloadIsRefusedAndNotExpressible : Obligations.LongPayloadIsRefusedAndNotExpressible := by
  unfold Obligations.LongPayloadIsRefusedAndNotExpressible
  intro cmd p hp
  refine ⟨exec_encode_tooLong hp cmd, fun bs rest hd => ?_⟩
  have hshort : p.length ≤ Config.maxPayload := of_decide_eq_true (wf_of_decode hd)
  exact absurd hp (Nat.not_lt.mpr hshort)

/-- VALIDATE outside 5 to 260 bytes is refused in every state (40_codec R84). -/
theorem exec_validate_badLength {c : List Byte} (hc : ¬ (Config.overhead ≤ c.length ∧ c.length ≤ Config.maxFrame))
    (s : State) : exec (.validate c) s = .refused (.validateBadLength c.length) :=
  if_pos (by omega)

/-- VALIDATE sums every byte but the last. -/
theorem candidateCks_concat (body : List Byte) (last : Byte) : candidateCks (body ++ [last]) = cks body := by
  have hend : (body ++ [last]).length - 1 = body.length := by simp
  rw [candidateCks, hend, slice_zero, List.take_left]

/-- The last byte is compared with that sum as a number. -/
theorem candidateOk_concat (body : List Byte) (last : Byte) :
    candidateOk (body ++ [last]) = decide (sumBytes body % 256 = last.toNat) := by
  have hend : (body ++ [last]).length - 1 = body.length := by simp
  have hlast : byteAt (body ++ [last]) body.length = last := by
    rw [byteAt_append_right _ le_rfl, Nat.sub_self, byteAt_cons_zero]
  rw [candidateOk, candidateCks_concat, hend, hlast, ← cks_toNat]
  exact decide_eq_decide.mpr BitVec.toNat_inj.symm

/-- Settles O9: the answer reads the candidate as its last byte and the bytes before it; a decoded VALIDATE is
well-formed. -/
theorem validateComparesTheChecksum : Obligations.ValidateComparesTheChecksum := by
  unfold Obligations.ValidateComparesTheChecksum
  intro s c
  split
  · next hc =>
    obtain ⟨hlo, hhi⟩ := hc
    refine ⟨rfl, fun body last hbody => ?_⟩
    rw [exec_validate hlo hhi, hbody, candidateOk_concat, candidateCks_concat, cks_eq_ofNat_mod]
    rfl
  · next hc =>
    refine ⟨exec_validate_badLength hc s, fun bs rest hd => hc ?_⟩
    simpa [Instr.wf] using wf_of_decode hd

/-- What ENCODE makes of a payload it does not refuse is a valid frame (30_encoding R66). -/
theorem validFrame_encodeFrame {p : List Byte} (hp : p.length ≤ Config.maxPayload) (cmd : Byte) :
    ValidFrame (encodeFrame cmd p) := by
  have hlen : (encodeFrame cmd p).length = p.length + Config.overhead := encodeFrame_length cmd p
  have hlast : (encodeFrame cmd p).length - 1 = 4 + p.length := by rw [encodeFrame_length]; omega
  refine ⟨hlen ▸ Nat.le_add_left _ _, ?_, byteAt_encodeFrame_lead1 cmd p, byteAt_encodeFrame_lead2 cmd p, ?_⟩
  · rw [hlen, byteAt_encodeFrame_length hp]
  · rw [hlast, byteAt_encodeFrame_checksum]

/-- VALIDATE sums the head of an encoded frame. -/
theorem candidateCks_encodeFrame (cmd : Byte) (p : List Byte) :
    candidateCks (encodeFrame cmd p) = cks (frameHead cmd p) :=
  candidateCks_concat (frameHead cmd p) (cks (frameHead cmd p))

/-- A valid frame's last byte is the sum VALIDATE forms. -/
theorem candidateOk_of_validFrame {c : List Byte} (h : ValidFrame c) : candidateOk c = true := by
  obtain ⟨-, -, -, -, hcks⟩ := h
  exact beq_iff_eq.mpr hcks.symm

/-- VALIDATE accepts what ENCODE returned, whatever the state (40_codec R85). -/
theorem exec_validate_encodeFrame {p : List Byte} (hp : p.length ≤ Config.maxPayload) (cmd : Byte) (s : State) :
    exec (.validate (encodeFrame cmd p)) s = .next (returnResult (.validated true (cks (frameHead cmd p))) s) := by
  have hlen : (encodeFrame cmd p).length = p.length + Config.overhead := encodeFrame_length cmd p
  rw [exec_validate (hlen ▸ Nat.le_add_left _ _) (hlen ▸ Nat.add_le_add_right hp _),
    candidateOk_of_validFrame (validFrame_encodeFrame hp cmd), candidateCks_encodeFrame]

/-- `frame_of` finds the payload behind the four bytes of the header (00_scope R13). -/
theorem frameOf_encodeFrame_payload {p : List Byte} (hp : p.length ≤ Config.maxPayload) (cmd : Byte) :
    (frameOf (encodeFrame cmd p)).payload = p := by
  have hdrop : (encodeFrame cmd p).drop 4 = p ++ [cks (frameHead cmd p)] := rfl
  simp only [frameOf, byteAt_encodeFrame_length hp, slice, hdrop, Nat.add_sub_cancel_left, List.take_left]

/-- Settles O8: the encoded frame is valid, VALIDATE accepts it in the state ENCODE leaves, and its record holds the
operands. -/
theorem encodedFrameValidates : Obligations.EncodedFrameValidates := by
  unfold Obligations.EncodedFrameValidates
  intro s cmd p hp
  exact ⟨encodeFrame cmd p, returnResult (.encoded (encodeFrame cmd p)) s, exec_encode hp cmd s, rfl,
    validFrame_encodeFrame hp cmd, exec_validate_encodeFrame hp cmd _, byteAt_encodeFrame_length hp cmd,
    byteAt_encodeFrame_command cmd p, frameOf_encodeFrame_payload hp cmd⟩

end Sys2Proof.Machine

/-! The choice of the micro-step as five equivalences (41_reassembler R101), and the bytes it reads: bytes behind
those of a micro-step that removes some never change it. -/

namespace Sys2Proof.Machine

theorem selectStep_eq_short_iff {buf : Block} : selectStep buf = .short ↔ buf.length < Config.minScan := by
  rw [selectStep_unfolded]
  split_ifs with hshort <;> simp [hshort]

theorem selectStep_eq_hdrMiss_iff {buf : Block} : selectStep buf = .hdrMiss ↔
    Config.minScan ≤ buf.length ∧ (byteAt buf 0 ≠ Config.lead1 ∨ byteAt buf 1 ≠ Config.lead2) := by
  rw [← Nat.not_lt, selectStep_unfolded]
  split_ifs with hshort hmiss <;> simp [*]

theorem selectStep_eq_stall_iff {buf : Block} : selectStep buf = .stall ↔
    Config.minScan ≤ buf.length ∧ byteAt buf 0 = Config.lead1 ∧ byteAt buf 1 = Config.lead2 ∧
      (byteAt buf 2).toNat + Config.overhead > buf.length := by
  rw [← Nat.not_lt, selectStep_unfolded]
  split_ifs with hshort hmiss hstall <;> grind

theorem selectStep_eq_emit_iff {buf : Block} : selectStep buf = .emit ↔
    Config.minScan ≤ buf.length ∧ byteAt buf 0 = Config.lead1 ∧ byteAt buf 1 = Config.lead2 ∧
      (byteAt buf 2).toNat + Config.overhead ≤ buf.length ∧
      cks (slice buf 0 ((byteAt buf 2).toNat + 4)) = byteAt buf ((byteAt buf 2).toNat + 4) := by
  rw [← Nat.not_lt, selectStep_unfolded]
  split_ifs with hshort hmiss hstall hcks <;> grind

theorem selectStep_eq_ckfail_iff {buf : Block} : selectStep buf = .ckfail ↔
    Config.minScan ≤ buf.length ∧ byteAt buf 0 = Config.lead1 ∧ byteAt buf 1 = Config.lead2 ∧
      (byteAt buf 2).toNat + Config.overhead ≤ buf.length ∧
      cks (slice buf 0 ((byteAt buf 2).toNat + 4)) ≠ byteAt buf ((byteAt buf 2).toNat + 4) := by
  rw [← Nat.not_lt, selectStep_unfolded]
  split_ifs with hshort hmiss hstall hcks <;> grind

section
variable {buf : Block} {m i k : Nat} (tail : List Byte)

theorem byteAt_take_append (hm : i < m) (hb : i < buf.length) : byteAt (buf.take m ++ tail) i = byteAt buf i := by
  rw [byteAt_append_left _ (by rw [List.length_take]; omega), byteAt_take hm]

theorem slice_take_append (hm : k ≤ m) (hb : k ≤ buf.length) : slice (buf.take m ++ tail) 0 k = slice buf 0 k := by
  rw [slice_append_left _ (by rw [List.length_take]; omega), slice_zero, slice_zero, List.take_take, min_eq_left hm]

end

/-- The choice of a removing micro-step reads the first `max(7, n + 5)` bytes alone. -/
theorem selectStep_take_append {buf : Block} {m : Nat} (tail : List Byte) (hscan : 3 ≤ Config.minScan)
    (hshort : selectStep buf ≠ .short) (hstall : selectStep buf ≠ .stall)
    (hm : max Config.minScan ((byteAt buf 2).toNat + Config.overhead) ≤ m) :
    selectStep (buf.take m ++ tail) = selectStep buf := by
  obtain ⟨hmscan, hmlen⟩ : Config.minScan ≤ m ∧ (byteAt buf 2).toNat + Config.overhead ≤ m := max_le_iff.mp hm
  have hlong : Config.minScan ≤ buf.length := selectStep_long hshort
  have hlength : (buf.take m ++ tail).length = min m buf.length + tail.length := by simp
  have hfront {i : Nat} (hi : i < 3) : byteAt (buf.take m ++ tail) i = byteAt buf i :=
    byteAt_take_append tail (by omega) (by omega)
  have hlong' : Config.minScan ≤ (buf.take m ++ tail).length := by omega
  rw [selectStep_unfolded, selectStep_unfolded buf, if_neg hlong'.not_gt, if_neg hlong.not_gt,
    hfront (i := 0) (by decide), hfront (i := 1) (by decide), hfront (i := 2) (by decide)]
  by_cases hmiss : byteAt buf 0 ≠ Config.lead1 ∨ byteAt buf 1 ≠ Config.lead2
  · rw [if_pos hmiss, if_pos hmiss]
  · obtain ⟨h1, h2⟩ : byteAt buf 0 = Config.lead1 ∧ byteAt buf 1 = Config.lead2 := by simpa using hmiss
    have hcomplete : (byteAt buf 2).toNat + Config.overhead ≤ buf.length :=
      Nat.le_of_not_lt fun hless => hstall (selectStep_eq_stall_iff.mpr ⟨hlong, h1, h2, hless⟩)
    have hcomplete' : (byteAt buf 2).toNat + Config.overhead ≤ (buf.take m ++ tail).length := by omega
    have hover : 4 < Config.overhead := by decide
    rw [if_neg hmiss, if_neg hmiss, if_neg hcomplete'.not_gt, if_neg hcomplete.not_gt,
      slice_take_append tail (by omega) (by omega), byteAt_take_append tail (by omega) (by omega)]

/-- Bytes that arrive behind a removing micro-step's buffer do not change the choice. -/
theorem selectStep_append {buf : Block} (tail : List Byte) (hscan : 3 ≤ Config.minScan)
    (hshort : selectStep buf ≠ .short) (hstall : selectStep buf ≠ .stall) :
    selectStep (buf ++ tail) = selectStep buf := by
  have hall := selectStep_take_append tail hscan hshort hstall (Nat.le_add_left _ buf.length)
  rwa [List.take_of_length_le (Nat.le_add_right _ _)] at hall

/-- Settles O19: the five equivalences, and that bytes outside the first `max(7, n + 5)` are not read. -/
theorem microStepIsChosenInOrder : Obligations.MicroStepIsChosenInOrder := by
  unfold Obligations.MicroStepIsChosenInOrder
  have hscan : 3 ≤ Config.minScan := by decide
  exact ⟨hscan, fun buf => ⟨selectStep_eq_short_iff, selectStep_eq_hdrMiss_iff, selectStep_eq_stall_iff,
    selectStep_eq_emit_iff, selectStep_eq_ckfail_iff,
    fun hshort hstall tail => selectStep_take_append tail hscan hshort hstall le_rfl⟩⟩

end Sys2Proof.Machine

/-! One pass of the loop by the micro-step it chooses, as a pass and as an instruction of its own (41_reassembler R102
to R106). -/

namespace Sys2Proof.Machine

theorem rxStep_of_hdrMiss {buf : Block} (hk : selectStep buf = .hdrMiss) :
    rxStep buf = some (buf.drop Config.discardHdrMiss, none) := by
  simpa [hk] using rxStep_cases buf

theorem rxStep_of_emit {buf : Block} (hk : selectStep buf = .emit) :
    rxStep buf = some (buf.drop ((byteAt buf 2).toNat + Config.overhead),
      some (frameOf (slice buf 0 ((byteAt buf 2).toNat + Config.overhead)))) := by
  simpa [hk] using rxStep_cases buf

theorem rxStep_of_ckfail {buf : Block} (hk : selectStep buf = .ckfail) :
    rxStep buf = some (buf.drop Config.discardCksFail, none) := by
  simpa [hk] using rxStep_cases buf

theorem rxStep_of_short {buf : Block} (h : buf.length < Config.minScan) : rxStep buf = none :=
  (quiescent_iff_stops buf).mp (.inl h)

/-- The loop stops where no pass goes on. -/
theorem runLoop_of_stop {buf : Block} (h : rxStep buf = none) (k : Nat) (out : List Frame) :
    runLoop k buf out = (out, buf) := by
  cases k <;> simp [runLoop, h]

theorem runLoop_succ_of_rxStep {buf buf' : Block} {f : Option Frame} (h : rxStep buf = some (buf', f)) (k : Nat)
    (out : List Frame) : runLoop (k + 1) buf out = runLoop k buf' (out ++ f.toList) := by
  simp [runLoop, h]

/-- The chosen micro-step, as an instruction, is one pass of the loop; its record is returned at once (log entry 4). -/
theorem exec_chosen_of_rxStep {s : State} {buf : Block} {f : Option Frame} (h : rxStep s.rxBuf = some (buf, f)) :
    exec (selectStep s.rxBuf).instr s = .next { s with
      rxBuf := buf
      host.results := s.host.results ++ f.toList.map fun g => .frames [g] } := by
  have hq : ¬ Quiescent s.rxBuf := by simp [quiescent_iff_stops, h]
  have hstep : step s = exec (selectStep s.rxBuf).instr s := by rw [step, fetch, if_neg hq]; rfl
  rw [← hstep, step_of_rxStep h]

/-- Where the loop stops, its micro-step, SHORT or STALL, leaves the state. -/
theorem exec_chosen_of_stop {s : State} (h : rxStep s.rxBuf = none) : exec (selectStep s.rxBuf).instr s = .next s := by
  rcases (rxStep_eq_none_iff s.rxBuf).mp h with hk | hk
  · rw [hk]; exact chosenStep_of_chosen s hk
  · rw [hk]; exact chosenStep_of_chosen s hk

/-- Settles O20: fewer than `MIN_SCAN` bytes stop the loop, also right after a FEED's append. -/
theorem shortDiscardsNothing : Obligations.ShortDiscardsNothing := by
  unfold Obligations.ShortDiscardsNothing
  intro s hs
  refine ⟨chosenStep_of_chosen s (selectStep_eq_short_iff.mpr hs), runLoop_of_stop (rxStep_of_short hs), fun b hb => ?_⟩
  have hq : Quiescent (s.rxBuf ++ [b]) := .inl (by simpa using hb)
  rw [exec_feed, feedByte_of_quiescent hq]
  rfl

/-- Settles O21: the two bytes in front are not the sync pattern, so HDR_MISS is chosen. -/
theorem hdrMissDropsOneByte : Obligations.HdrMissDropsOneByte := by
  unfold Obligations.HdrMissDropsOneByte
  intro s a b rest hs hlong hmiss
  have hk : selectStep s.rxBuf = .hdrMiss := by
    rw [selectStep_eq_hdrMiss_iff, hs]
    exact ⟨hlong, hmiss⟩
  refine ⟨by rw [hs]; rfl, chosenStep_of_chosen _ hk, fun k out => ?_⟩
  simpa using runLoop_succ_of_rxStep (rxStep_of_hdrMiss hk) k out

end Sys2Proof.Machine

/-! A complete candidate at the front of the buffer (41_reassembler R105, R106): its bytes, its record and the bytes
behind it. -/

namespace Sys2Proof.Machine

/-- `frame_of` gives back the record whose bytes it reads (00_scope R13). -/
theorem frameOf_frameBytes {f : Frame} (hf : f.wf) : frameOf f.bytes = f := by
  obtain ⟨l1, l2, n, cmd, p, ck⟩ := f
  have hp : p.length = n.toNat := hf
  have hck : byteAt (p ++ [ck]) n.toNat = ck := by
    rw [byteAt_append_right _ hp.le, hp, Nat.sub_self, byteAt_cons_zero]
  have hpay : (p ++ [ck]).take n.toNat = p := List.take_left' hp
  simp [frameOf, Frame.bytes, slice, hpay, Nat.add_comm 4, hck]

section
variable {n cmd ck : Byte} {p : List Byte} (hp : p.length = n.toNat)
include hp

theorem slice_candidate_head (rest : List Byte) :
    slice ([Config.lead1, Config.lead2, n, cmd] ++ p ++ [ck] ++ rest) 0 (n.toNat + 4) =
      [Config.lead1, Config.lead2, n, cmd] ++ p := by
  rw [slice_zero, List.append_assoc, List.take_left' (by simp [hp])]

theorem byteAt_candidate_checksum (rest : List Byte) :
    byteAt ([Config.lead1, Config.lead2, n, cmd] ++ p ++ [ck] ++ rest) (n.toNat + 4) = ck := by
  have hhead : ([Config.lead1, Config.lead2, n, cmd] ++ p).length = n.toNat + 4 := by simp [hp]
  rw [List.append_assoc, byteAt_append_right _ hhead.le, hhead, Nat.sub_self]
  rfl

end

/-- The record's bytes with their length and checksum right are a valid frame (30_encoding R66). -/
theorem validFrame_candidate {n cmd ck : Byte} {p : List Byte} (hp : p.length = n.toNat)
    (hck : cks ([Config.lead1, Config.lead2, n, cmd] ++ p) = ck) :
    ValidFrame ([Config.lead1, Config.lead2, n, cmd] ++ p ++ [ck]) := by
  have hlen : ([Config.lead1, Config.lead2, n, cmd] ++ p ++ [ck]).length = n.toNat + Config.overhead := by
    simp [hp, Config.overhead]
  have hhead := slice_candidate_head (cmd := cmd) (ck := ck) hp []
  have hlast := byteAt_candidate_checksum (cmd := cmd) (ck := ck) hp []
  rw [List.append_nil] at hhead hlast
  refine ⟨hlen ▸ Nat.le_add_left _ _, hlen, rfl, rfl, ?_⟩
  rw [hlen, show n.toNat + Config.overhead - 1 = n.toNat + 4 from rfl, hhead, hlast, hck]

/-- A valid frame in front of at least `MIN_SCAN` bytes is chosen for EMIT, whatever follows it. -/
theorem selectStep_validFrame_append {c rest : List Byte} (hc : ValidFrame c)
    (hlong : Config.minScan ≤ (c ++ rest).length) : selectStep (c ++ rest) = .emit := by
  obtain ⟨hmin, hlen, hlead1, hlead2, hcks⟩ := hc
  have hover : Config.overhead = 5 := rfl
  rw [show c.length - 1 = (byteAt c 2).toNat + 4 by omega] at hcks
  rw [selectStep_eq_emit_iff, byteAt_append_left _ (i := 0) (by omega), byteAt_append_left _ (i := 1) (by omega),
    byteAt_append_left _ (i := 2) (by omega), slice_append_left _ (by omega), byteAt_append_left _ (by omega)]
  exact ⟨hlong, hlead1, hlead2, by rw [List.length_append]; omega, hcks.symm⟩

/-- The pass that emits a valid frame: its bytes go and its record comes out. -/
theorem rxStep_validFrame_append {c rest : List Byte} (hc : ValidFrame c)
    (hlong : Config.minScan ≤ (c ++ rest).length) : rxStep (c ++ rest) = some (rest, some (frameOf c)) := by
  have hk := selectStep_validFrame_append hc hlong
  obtain ⟨hmin, hlen, -⟩ := hc
  have hover : Config.overhead = 5 := rfl
  rw [rxStep_of_emit hk, byteAt_append_left _ (by omega), ← hlen, slice_zero, List.take_left, List.drop_left]

/-- Settles O23: the candidate's bytes are those of a record with its six fields, and they are a valid frame. -/
theorem emitTakesTheCandidate : Obligations.EmitTakesTheCandidate := by
  unfold Obligations.EmitTakesTheCandidate
  intro s n cmd ck p rest hp hs hlong hck
  have hc := validFrame_candidate hp hck
  have hframe := frameOf_frameBytes (f := ⟨Config.lead1, Config.lead2, n, cmd, p, ck⟩) hp
  have hk : selectStep s.rxBuf = .emit := hs ▸ selectStep_validFrame_append hc (hs ▸ hlong)
  have hpass := rxStep_validFrame_append hc (hs ▸ hlong)
  rw [← hs] at hpass
  have hexec := exec_chosen_of_rxStep hpass
  rw [hk] at hexec
  refine ⟨⟨_, hexec, rfl, rfl⟩, fun k out => ?_⟩
  rw [runLoop_succ_of_rxStep hpass, ← hframe]
  rfl

/-- Settles O25: the candidate is complete and its last byte is not its checksum, so CKFAIL is chosen. -/
theorem ckfailDropsTwoBytes : Obligations.CkfailDropsTwoBytes := by
  unfold Obligations.CkfailDropsTwoBytes
  intro s n cmd ck p rest hp hs hlong hck
  have hlen : n.toNat + Config.overhead ≤ s.rxBuf.length := by
    rw [hs]; simp [hp, Config.overhead]
  have hn : byteAt s.rxBuf 2 = n := hs ▸ rfl
  have hk : selectStep s.rxBuf = .ckfail := by
    rw [selectStep_eq_ckfail_iff, hn]
    refine ⟨hlong, hs ▸ rfl, hs ▸ rfl, hlen, ?_⟩
    rwa [hs, slice_candidate_head hp, byteAt_candidate_checksum hp]
  refine ⟨by rw [hs]; rfl, chosenStep_of_chosen _ hk, fun k out => ?_⟩
  simpa using runLoop_succ_of_rxStep (rxStep_of_ckfail hk) k out

end Sys2Proof.Machine

/-! What a FEED returns: the loop has one outcome (41_reassembler R100), a quiescent buffer (R110) and records
that stand for valid frames (R120). -/

namespace Sys2Proof.Machine

/-- The source's loop, pass by pass: it stops where no pass goes on, or goes on from what the pass leaves. -/
theorem Drains.rxStep_induction {P : ∀ (buf : Block) (fs : List Frame) (r : Block), Drains buf fs r → Prop}
    (stop : ∀ (buf : Block) (h : rxStep buf = none),
      P buf [] buf (drains_of_quiescent ((quiescent_iff_stops buf).mpr h)))
    (pass : ∀ (buf buf' r : Block) (f : Option Frame) (fs : List Frame) (h : rxStep buf = some (buf', f))
      (hd : Drains buf' fs r), P buf' fs r hd → P buf (f.toList ++ fs) r (drains_of_rxStep h hd))
    {buf : Block} {fs : List Frame} {r : Block} (hd : Drains buf fs r) : P buf fs r hd := by
  induction hd with
  | short hlong => exact stop _ (rxStep_of_short hlong)
  | hdrMiss hlong hmiss hd ih =>
    exact pass _ _ _ none _ (rxStep_of_hdrMiss (selectStep_eq_hdrMiss_iff.mpr ⟨hlong, hmiss⟩)) hd ih
  | stall hlong h1 h2 hless => exact stop _ ((quiescent_iff_stops _).mp (.inr ⟨h1, h2, hless⟩))
  | emit hlong h1 h2 hn hle hcks hd ih =>
    subst hn
    exact pass _ _ _ (some _) _ (rxStep_of_emit (selectStep_eq_emit_iff.mpr ⟨hlong, h1, h2, hle, hcks⟩)) hd ih
  | ckfail hlong h1 h2 hn hle hcks hd ih =>
    subst hn
    exact pass _ _ _ none _ (rxStep_of_ckfail (selectStep_eq_ckfail_iff.mpr ⟨hlong, h1, h2, hle, hcks⟩)) hd ih

/-- Enough passes compute whatever the source's loop may answer. -/
theorem runLoop_of_drains (hv : LoopValues) {buf r : Block} {fs : List Frame} (hd : Drains buf fs r) {k : Nat}
    (hk : buf.length ≤ k) (out : List Frame) : runLoop k buf out = (out ++ fs, r) := by
  induction hd using Drains.rxStep_induction generalizing k out with
  | stop buf h => rw [runLoop_of_stop h, List.append_nil]
  | pass buf buf' r f fs h hd ih =>
    have hshorter : buf'.length < buf.length := (rxStep_shorter hv h).2
    obtain ⟨j, rfl⟩ : ∃ j, k = j + 1 := ⟨k - 1, by omega⟩
    rw [runLoop_succ_of_rxStep h, ih (by omega), List.append_assoc]

/-- The source's loop has at most one outcome. -/
theorem drains_unique (hv : LoopValues) {buf r r' : Block} {fs fs' : List Frame} (hd : Drains buf fs r)
    (hd' : Drains buf fs' r') : fs' = fs ∧ r' = r := by
  simpa using (runLoop_of_drains hv hd' le_rfl []).symm.trans (runLoop_of_drains hv hd le_rfl [])

/-- Settles O28: FEED computes an outcome of the source's loop, and there is no other. -/
theorem feedRunsTheLoop : Obligations.FeedRunsTheLoop := by
  unfold Obligations.FeedRunsTheLoop
  have hv := loopValues
  refine ⟨hv.minScan, hv.discardHdrMiss, hv.discardCksFail, fun s b => ⟨rfl, ?_⟩⟩
  have hd := feedByte_spec hv b s.rxBuf
  exact ⟨_, _, hd, fun _ _ => drains_unique hv hd, exec_feed b s⟩

/-- The source's loop stops on a quiescent buffer only. -/
theorem drains_quiescent {buf r : Block} {fs : List Frame} (hd : Drains buf fs r) : Quiescent r := by
  induction hd using Drains.rxStep_induction with
  | stop buf h => exact (quiescent_iff_stops buf).mpr h
  | pass _ _ _ _ _ _ _ ih => exact ih

theorem feedByte_quiescent (hv : LoopValues) (b : Byte) (buf : Block) : Quiescent (feedByte b buf).2 :=
  drains_quiescent (feedByte_spec hv b buf)

/-- Settles O31: FEED leaves what the loop stops on, RESET the empty buffer. -/
theorem feedLeavesAQuiescentBuffer : Obligations.FeedLeavesAQuiescentBuffer := by
  unfold Obligations.FeedLeavesAQuiescentBuffer
  have hv := loopValues
  exact ⟨hv.minScan, hv.discardHdrMiss, hv.discardCksFail, fun s =>
    ⟨fun b => ⟨_, exec_feed b s, feedByte_quiescent hv b s.rxBuf⟩, _, exec_reset s, .inl hv.minScan⟩⟩

/-- A quiescent buffer has fewer bytes than a scan needs, or than the longest candidate has (41_reassembler R111). -/
theorem quiescent_length_lt {buf : Block} (hscan : Config.minScan ≤ Config.rxCap) (hq : Quiescent buf) :
    buf.length < Config.rxCap := by
  rcases hq with hshort | ⟨-, -, hless⟩
  · exact hshort.trans_le hscan
  · have hn : (byteAt buf 2).toNat < 256 := (byteAt buf 2).isLt
    have hcap : 255 + Config.overhead = Config.rxCap := rfl
    omega

/-- Settles O32: the append makes at most `RX_CAP` bytes and no pass adds one. -/
theorem bufferNeverPassesItsCapacity : Obligations.BufferNeverPassesItsCapacity := by
  unfold Obligations.BufferNeverPassesItsCapacity
  have hscan : Config.minScan ≤ Config.rxCap := by decide
  refine ⟨hscan, fun s hq => ?_⟩
  have hlt := quiescent_length_lt hscan hq
  exact ⟨Nat.le_of_lt_succ hlt, fun b k =>
    (runLoop_length_le k _ _).trans ((bufAppend_length b s.rxBuf).trans_le hlt)⟩

/-- The record made of a valid frame stands for it (30_encoding R66, 00_scope R13). -/
theorem goodFrame_frameOf {c : List Byte} (hc : ValidFrame c) : GoodFrame (frameOf c) := by
  have ⟨_, hlen, _⟩ := hc
  refine ⟨?_, (frameOf_bytes hlen).symm ▸ hc⟩
  have hover : Config.overhead = 5 := rfl
  change (slice c 4 (4 + (byteAt c 2).toNat)).length = (byteAt c 2).toNat
  rw [slice_length]
  omega

/-- EMIT is chosen only where a valid frame stands at the front (41_reassembler R105). -/
theorem validFrame_of_emit {buf : Block} (hk : selectStep buf = .emit) :
    ValidFrame (slice buf 0 ((byteAt buf 2).toNat + Config.overhead)) := by
  obtain ⟨-, h1, h2, hle, hcks⟩ := selectStep_eq_emit_iff.mp hk
  have hover : Config.overhead = 5 := rfl
  have hlen : (slice buf 0 ((byteAt buf 2).toNat + Config.overhead)).length =
      (byteAt buf 2).toNat + Config.overhead := by rw [slice_length]; omega
  have hbyte {i : Nat} (hi : i < (byteAt buf 2).toNat + Config.overhead) :
      byteAt (slice buf 0 ((byteAt buf 2).toNat + Config.overhead)) i = byteAt buf i := byteAt_take hi
  refine ⟨by omega, ?_, ?_, ?_, ?_⟩
  · rw [hlen, hbyte (by omega)]
  · rw [hbyte (by omega), h1]
  · rw [hbyte (by omega), h2]
  · rw [hlen, hbyte (by omega), show (byteAt buf 2).toNat + Config.overhead - 1 = (byteAt buf 2).toNat + 4 from rfl,
      ← hcks, slice_zero, slice_zero, slice_zero, List.take_take, min_eq_left (by omega)]

/-- A record the loop puts out in a pass stands for a valid frame. -/
theorem goodFrame_of_rxStep {buf buf' : Block} {f : Frame} (h : rxStep buf = some (buf', some f)) : GoodFrame f := by
  rcases rxStep_cases buf with ⟨-, e⟩ | ⟨-, e⟩ | ⟨hk, e⟩ | ⟨-, e⟩ <;> rw [e] at h <;> cases h
  exact goodFrame_frameOf (validFrame_of_emit hk)

theorem drains_goodFrames {buf r : Block} {fs : List Frame} (hd : Drains buf fs r) : ∀ f ∈ fs, GoodFrame f := by
  induction hd using Drains.rxStep_induction with
  | stop buf h => simp
  | pass buf buf' r f fs h hd ih =>
    intro g hg
    rcases List.mem_append.mp hg with hg | hg
    · obtain rfl : f = some g := Option.mem_toList.mp hg
      exact goodFrame_of_rxStep h
    · exact ih g hg

/-- Settles O34: the list of a FEED is that of the loop, whose every record comes from an EMIT. -/
theorem returnedFramesAreValid : Obligations.ReturnedFramesAreValid := by
  unfold Obligations.ReturnedFramesAreValid
  exact fun s b => ⟨_, _, exec_feed b s, rfl, drains_goodFrames (feedByte_spec loopValues b s.rxBuf)⟩

end Sys2Proof.Machine

/-! A FEED's passes as instructions of their own, counted (41_reassembler R112). -/

namespace Sys2Proof.Machine

/-- A micro-step that removes bytes runs as the pass of the loop that goes on. -/
theorem rxStep_of_exec_removing {k : RxStep} {s t : State} (hshort : k ≠ .short) (hstall : k ≠ .stall)
    (h : exec k.instr s = .next t) : ∃ f, rxStep s.rxBuf = some (t.rxBuf, f) := by
  have hk : selectStep s.rxBuf = k := by cases k <;> exact (chosenStep_next h).1
  subst hk
  cases hpass : rxStep s.rxBuf with
  | none => exact absurd ((rxStep_eq_none_iff _).mp hpass) (by simp [hshort, hstall])
  | some p =>
    rw [exec_chosen_of_rxStep hpass] at h
    cases h
    exact ⟨p.2, rfl⟩

/-- The source's loop as micro-steps in turn: removing ones, at most one for each byte from the seventh on, and one that
stops; the requests are held and the records come out in the loop's order. -/
theorem execSeq_microSteps_of_drains (hv : LoopValues) {buf r : Block} {fs : List Frame} (hd : Drains buf fs r)
    (h : HostSide) : ∃ (going : List RxStep) (last : RxStep) (t : State),
      (∀ k ∈ going, k ≠ .short ∧ k ≠ .stall) ∧ (last = .short ∨ last = .stall) ∧
      execSeq ((going ++ [last]).map RxStep.instr) ⟨buf, h⟩ = .next t ∧ t.rxBuf = r ∧
      t.host.requests = h.requests ∧ returnedFrames t.host.results = returnedFrames h.results ++ fs ∧
      going.length ≤ buf.length - (Config.minScan - 1) := by
  induction hd using Drains.rxStep_induction generalizing h with
  | stop buf hstop =>
    refine ⟨[], selectStep buf, ⟨buf, h⟩, by simp, (rxStep_eq_none_iff buf).mp hstop, ?_, rfl, rfl, by simp, by simp⟩
    exact execSeq_cons_of_next (exec_chosen_of_stop (s := ⟨buf, h⟩) hstop) []
  | pass buf buf' r f fs hpass hd ih =>
    obtain ⟨going, last, t, hgoing, hlast, hrun, hr, hreq, hres, hcount⟩ :=
      ih { h with results := h.results ++ f.toList.map fun g => .frames [g] }
    obtain ⟨hlong, hshorter⟩ := rxStep_shorter hv hpass
    have hgoes : selectStep buf ≠ .short ∧ selectStep buf ≠ .stall := by
      have hnone := (rxStep_eq_none_iff buf).not.mp (by simp [hpass])
      exact not_or.mp hnone
    refine ⟨selectStep buf :: going, last, t, List.forall_mem_cons.mpr ⟨hgoes, hgoing⟩, hlast, ?_, hr, hreq, ?_, ?_⟩
    · exact (execSeq_cons_of_next (exec_chosen_of_rxStep (s := ⟨buf, h⟩) hpass) _).trans hrun
    · have hrec : returnedFrames (f.toList.map fun g => .frames [g]) = f.toList := by
        cases f <;> rfl
      rw [hres, ← List.append_assoc]
      simpa [returnedFrames] using hrec
    · rw [List.length_cons]
      have := hv.minScan
      omega

/-- Settles O30: the pass of a removing micro-step shortens the buffer, and a FEED is such passes and one that stops. -/
theorem everyFeedEnds : Obligations.EveryFeedEnds := by
  unfold Obligations.EveryFeedEnds
  have hv := loopValues
  refine ⟨hv.minScan, hv.discardHdrMiss, hv.discardCksFail, fun s t k hshort hstall h => ?_, fun s b => ?_⟩
  · obtain ⟨f, hpass⟩ := rxStep_of_exec_removing hshort hstall h
    exact rxStep_shorter hv hpass
  · obtain ⟨going, last, u, hgoing, hlast, hrun, hr, -, -, hcount⟩ :=
      execSeq_microSteps_of_drains hv (feedByte_spec hv b s.rxBuf) s.host
    rw [List.length_append, List.length_singleton] at hcount
    refine ⟨going, last, _, u, hgoing, hlast, exec_feed b s, hrun, hr, hcount, fun hcap => ?_⟩
    have hvalues : Config.rxCap - (Config.minScan - 1) + 1 = 255 := rfl
    omega

end Sys2Proof.Machine

/-! Streams: how the fed bytes are cut never matters (41_reassembler R113, R114), so what FEEDs in turn return follows
from the source's loop on beginnings of the stream. -/

namespace Sys2Proof.Machine

/-- What the cutting of a stream rests on of the values of 00_scope R7 (R8): a pass reads the first three bytes and
removes no byte beyond those it was chosen on. -/
structure CutValues : Prop where
  three_le_minScan : 3 ≤ Config.minScan
  discardHdrMiss_le : Config.discardHdrMiss ≤ Config.minScan
  discardCksFail_le : Config.discardCksFail ≤ Config.minScan

theorem cutValues : CutValues := ⟨by decide, by decide, by decide⟩

/-- A pass that goes on does the same with more bytes behind the buffer. -/
theorem rxStep_append (hc : CutValues) {buf buf' : Block} {f : Option Frame} (h : rxStep buf = some (buf', f))
    (tail : Block) : rxStep (buf ++ tail) = some (buf' ++ tail, f) := by
  have happend (hk : selectStep buf ≠ .short ∧ selectStep buf ≠ .stall) : selectStep (buf ++ tail) = selectStep buf :=
    selectStep_append tail hc.three_le_minScan hk.1 hk.2
  obtain ⟨hlong, -⟩ := rxStep_drops h
  have h3 := hc.three_le_minScan
  have hhdr := hc.discardHdrMiss_le
  have hcks := hc.discardCksFail_le
  rcases rxStep_cases buf with ⟨-, e⟩ | ⟨hk, e⟩ | ⟨hk, e⟩ | ⟨hk, e⟩ <;> rw [e] at h <;> cases h
  · rw [rxStep_of_hdrMiss ((happend (by simp [hk])).trans hk), List.drop_append_of_le_length (by omega)]
  · have hle := (selectStep_complete (.inl hk)).1
    rw [rxStep_of_emit ((happend (by simp [hk])).trans hk), byteAt_append_left _ (by omega), slice_append_left _ hle,
      List.drop_append_of_le_length hle]
  · rw [rxStep_of_ckfail ((happend (by simp [hk])).trans hk), List.drop_append_of_le_length (by omega)]

/-- The loop on a buffer, and then on what it leaves with more bytes behind it, is the loop on all of them. -/
theorem drains_append (hc : CutValues) {buf tail r₁ r₂ : Block} {fs₁ fs₂ : List Frame} (h₁ : Drains buf fs₁ r₁)
    (h₂ : Drains (r₁ ++ tail) fs₂ r₂) : Drains (buf ++ tail) (fs₁ ++ fs₂) r₂ := by
  induction h₁ using Drains.rxStep_induction with
  | stop buf h => exact h₂
  | pass buf buf' r f fs h hd ih =>
    rw [List.append_assoc]
    exact drains_of_rxStep (rxStep_append hc h tail) (ih h₂)

/-- FEEDs in turn are the source's loop on all their bytes (41_reassembler R113). -/
theorem drains_feedBytes (hv : LoopValues) (hc : CutValues) {buf : Block} (hq : Quiescent buf) (bs : List Byte) :
    Drains (buf ++ bs) (feedBytes bs buf).1.flatten (feedBytes bs buf).2 := by
  induction bs generalizing buf with
  | nil => simpa [feedBytes] using drains_of_quiescent hq
  | cons b bs ih =>
    have hrest := ih (feedByte_quiescent hv b buf)
    simpa [feedBytes_cons] using drains_append hc (feedByte_spec hv b buf) hrest

/-- Settles O38: both clauses are the law that the loop may be cut anywhere. -/
theorem feedingInPiecesAgrees : Obligations.FeedingInPiecesAgrees := by
  unfold Obligations.FeedingInPiecesAgrees
  have hv := loopValues
  have hc := cutValues
  refine ⟨hc.three_le_minScan, hv.discardHdrMiss, hc.discardHdrMiss_le, hv.discardCksFail, hc.discardCksFail_le,
    fun s bs hq => ⟨_, _, drains_feedBytes hv hc hq bs, execSeq_feeds bs s⟩, ?_⟩
  intro buf xs ys r₁ r₂ fs₁ fs₂ h₁ h₂
  rw [← List.append_assoc]
  exact drains_append hc h₁ h₂

/-- Settles O39: after RESET the FEEDs start on the empty buffer, whatever the state was. -/
theorem streamDeterminesFrames : Obligations.StreamDeterminesFrames := by
  unfold Obligations.StreamDeterminesFrames
  refine fun bs => ⟨(feedBytes bs bufClear).1, (feedBytes bs bufClear).2, fun s => ?_⟩
  exact (execSeq_cons_of_next (exec_reset s) _).trans (execSeq_feeds bs (setBuffer bufClear s))

/-- FEEDs whose bytes make the loop put out nothing return the empty list each. -/
theorem feedBytes_of_silent {buf bs r : Block} (hq : Quiescent buf) (hd : Drains (buf ++ bs) [] r) :
    feedBytes bs buf = (List.replicate bs.length [], r) := by
  obtain ⟨hflat, hr⟩ := drains_unique loopValues hd (drains_feedBytes loopValues cutValues hq bs)
  refine Prod.ext (List.eq_replicate_iff.mpr ⟨feedBytes_length bs buf, ?_⟩) hr
  exact List.flatten_eq_nil_iff.mp hflat

/-- Where the loop puts out nothing before the last byte, the last FEED returns all the records. -/
theorem feedBytes_of_silent_before_last {buf bs r₀ r : Block} {fs : List Frame} (hq : Quiescent buf) (hne : bs ≠ [])
    (hsilent : Drains (buf ++ bs.dropLast) [] r₀) (hd : Drains (buf ++ bs) fs r) :
    feedBytes bs buf = (List.replicate (bs.length - 1) [] ++ [fs], r) := by
  obtain ⟨hflat, hr⟩ := drains_unique loopValues hd (drains_feedBytes loopValues cutValues hq bs)
  rw [← List.dropLast_append_getLast hne, feedBytes_append, feedBytes_of_silent hq hsilent, feedBytes_cons]
    at hflat hr ⊢
  simp only [feedBytes, List.flatten_append, List.flatten_replicate_nil, List.flatten_singleton,
    List.nil_append] at hflat hr ⊢
  simp [hflat, hr]

section
variable {s : State} {bs r₀ r : Block} {fs : List Frame} (hq : Quiescent s.rxBuf)
include hq

/-- FEEDs whose bytes make the loop put out nothing, as instructions. -/
theorem execSeq_feeds_of_silent (hd : Drains (s.rxBuf ++ bs) [] r) : execSeq (bs.map .feed) s = .next { s with
    rxBuf := r
    host.results := s.host.results ++ List.replicate bs.length (.frames []) } := by
  rw [execSeq_feeds, feedBytes_of_silent hq hd, List.map_replicate]

/-- FEEDs of which only the last returns records, as instructions. -/
theorem execSeq_feeds_of_silent_before_last (hne : bs ≠ []) (hsilent : Drains (s.rxBuf ++ bs.dropLast) [] r₀)
    (hd : Drains (s.rxBuf ++ bs) fs r) : execSeq (bs.map .feed) s = .next { s with
      rxBuf := r
      host.results := s.host.results ++ List.replicate (bs.length - 1) (.frames []) ++ [.frames fs] } := by
  rw [execSeq_feeds, feedBytes_of_silent_before_last hq hne hsilent hd, List.map_append, List.map_replicate,
    List.append_assoc]
  rfl

end

end Sys2Proof.Machine

/-! Streams from the empty buffer that hold one valid frame (41_reassembler R116 to R118, R122). -/

namespace Sys2Proof.Machine

theorem quiescent_of_empty {s : State} (hs : s.rxBuf = []) : Quiescent s.rxBuf := .inl (hs ▸ loopValues.minScan)

theorem drains_of_empty_append {s : State} (hs : s.rxBuf = []) {bs r : Block} {fs : List Frame}
    (hd : Drains bs fs r) : Drains (s.rxBuf ++ bs) fs r := by
  rwa [hs]

/-- Fewer than `MIN_SCAN` bytes stay in an empty buffer, whatever they are. -/
theorem execSeq_feeds_of_short {s : State} (hs : s.rxBuf = []) {bs : Block} (hshort : bs.length < Config.minScan) :
    execSeq (bs.map .feed) s = .next { s with
      rxBuf := bs
      host.results := s.host.results ++ List.replicate bs.length (.frames []) } :=
  execSeq_feeds_of_silent (quiescent_of_empty hs) (drains_of_empty_append hs (.short hshort))

/-- The beginning of a valid frame is quiescent until its last byte. -/
theorem quiescent_take_of_validFrame {f : Block} (hf : ValidFrame f) {k : Nat} (hk : k < f.length) :
    Quiescent (f.take k) := by
  have hscan := cutValues.three_le_minScan
  obtain ⟨-, hlen, hlead1, hlead2, -⟩ := hf
  by_cases hshort : k < Config.minScan
  · exact .inl ((List.length_take_le k f).trans_lt hshort)
  · rw [Nat.not_lt] at hshort
    refine .inr ⟨?_, ?_, ?_⟩
    · rw [byteAt_take (by omega), hlead1]
    · rw [byteAt_take (by omega), hlead2]
    · rw [byteAt_take (by omega), List.length_take_of_le hk.le, ← hlen]
      exact hk

theorem ValidFrame.ne_nil {f : Block} (hf : ValidFrame f) : f ≠ [] := by
  obtain ⟨hmin, -⟩ := hf
  exact List.ne_nil_of_length_pos (Nat.lt_of_lt_of_le (by decide) hmin)

theorem drains_dropLast_of_validFrame {f : Block} (hf : ValidFrame f) : Drains f.dropLast [] f.dropLast := by
  have hpos : 0 < f.length := List.length_pos_of_ne_nil hf.ne_nil
  rw [List.dropLast_eq_take]
  exact drains_of_quiescent (quiescent_take_of_validFrame hf (Nat.sub_lt hpos Nat.one_pos))

/-- The loop emits a valid frame at the front once it holds `MIN_SCAN` bytes, and goes on behind it. -/
theorem drains_validFrame_append {f rest r : Block} {fs : List Frame} (hf : ValidFrame f)
    (hlong : Config.minScan ≤ (f ++ rest).length) (hd : Drains rest fs r) :
    Drains (f ++ rest) (frameOf f :: fs) r :=
  drains_of_rxStep (rxStep_validFrame_append hf hlong) hd

theorem drains_nil : Drains [] [] [] := .short (by decide)

theorem drains_validFrame {f : Block} (hf : ValidFrame f) (hlong : Config.minScan ≤ f.length) :
    Drains f [frameOf f] [] := by
  simpa using drains_validFrame_append hf (rest := []) (by simpa using hlong) drains_nil

section
variable {s : State} {f : Block} (hs : s.rxBuf = []) (hf : ValidFrame f)
include hs hf

/-- A frame of `MIN_SCAN` bytes or more comes back at its last byte (41_reassembler R116). -/
theorem execSeq_feeds_validFrame (hlong : Config.minScan ≤ f.length) : execSeq (f.map .feed) s = .next { s with
    rxBuf := []
    host.results := s.host.results ++ List.replicate (f.length - 1) (.frames []) ++ [.frames [frameOf f]] } :=
  execSeq_feeds_of_silent_before_last (quiescent_of_empty hs) hf.ne_nil
    (drains_of_empty_append hs (drains_dropLast_of_validFrame hf))
    (drains_of_empty_append hs (drains_validFrame hf hlong))

/-- A shorter frame comes back with the byte that makes `MIN_SCAN` (41_reassembler R117). -/
theorem execSeq_feeds_short_validFrame {g : Block} (hshort : f.length < Config.minScan)
    (hg : g.length = Config.minScan - f.length) : execSeq ((f ++ g).map .feed) s = .next { s with
      rxBuf := g
      host.results :=
        s.host.results ++ List.replicate (Config.minScan - 1) (.frames []) ++ [.frames [frameOf f]] } := by
  have hpos := List.length_pos_of_ne_nil hf.ne_nil
  have hlen : (f ++ g).length = Config.minScan := by rw [List.length_append]; omega
  have hbefore : (f ++ g).dropLast.length < Config.minScan := by rw [List.length_dropLast]; omega
  have hwhole : Drains (f ++ g) [frameOf f] g := drains_validFrame_append hf hlen.ge (.short (by omega))
  rw [← hlen]
  exact execSeq_feeds_of_silent_before_last (quiescent_of_empty hs) (by simp [hf.ne_nil])
    (drains_of_empty_append hs (.short hbefore)) (drains_of_empty_append hs hwhole)

end

/-- Settles O40: no beginning of the frame is emitted, and all of it is. -/
theorem alignedFrameIsReturnedAtItsLastByte : Obligations.AlignedFrameIsReturnedAtItsLastByte := by
  unfold Obligations.AlignedFrameIsReturnedAtItsLastByte
  refine ⟨cutValues.three_le_minScan, fun s f hs hf hlong => ?_⟩
  have ⟨_, hlen, _⟩ := hf
  rw [execSeq_feeds_validFrame hs hf (hlen ▸ hlong), hlen]
  rfl

/-- Settles O41: with fewer than `MIN_SCAN` bytes nothing is decided, and with the last of them the frame is emitted. -/
theorem shortFrameWaitsForSevenBytes : Obligations.ShortFrameWaitsForSevenBytes := by
  unfold Obligations.ShortFrameWaitsForSevenBytes
  intro s f hs hf hshort
  have ⟨_, hlen, _⟩ := hf
  rw [← hlen] at hshort ⊢
  exact ⟨execSeq_feeds_of_short hs hshort, fun g => execSeq_feeds_short_validFrame hs hf hshort⟩

/-- The loop drops bytes that begin no sync pair, as long as `MIN_SCAN` bytes are there (41_reassembler R103). -/
theorem drains_of_drop_garbage (hone : Config.discardHdrMiss = 1) {buf r : Block} {fs : List Frame} {j : Nat}
    (hmiss : ∀ i < j, Config.minScan + i ≤ buf.length ∧
      ¬(byteAt buf i = Config.lead1 ∧ byteAt buf (i + 1) = Config.lead2))
    (hd : Drains (buf.drop j) fs r) : Drains buf fs r := by
  induction j generalizing buf with
  | zero => exact hd
  | succ j ih =>
    obtain ⟨hlong, hfront⟩ := hmiss 0 j.succ_pos
    refine .hdrMiss hlong (not_and_or.mp hfront) (ih (fun i hi => ?_) ?_)
    · obtain ⟨hlong, hnext⟩ := hmiss (i + 1) (Nat.succ_lt_succ hi)
      rw [hone, byteAt_drop, byteAt_drop, List.length_drop, Nat.add_comm 1 i, Nat.add_comm 1 (i + 1)]
      exact ⟨by omega, hnext⟩
    · rwa [hone, List.drop_drop, Nat.add_comm]

/-- Garbage without a sync pair begins none with the frame behind it: `LEAD1` is not `LEAD2`. -/
theorem noSyncPair_append_frame {g f : Block} (hlead : Config.lead1 ≠ Config.lead2) (hg : NoSyncPair g)
    (hf : byteAt f 0 = Config.lead1) {i : Nat} (hi : i < g.length) :
    ¬(byteAt (g ++ f) i = Config.lead1 ∧ byteAt (g ++ f) (i + 1) = Config.lead2) := by
  by_cases hnext : i + 1 < g.length
  · rw [byteAt_append_left _ hi, byteAt_append_left _ hnext]
    exact hg i hnext
  · have hend : i + 1 = g.length := by omega
    rw [hend, byteAt_append_right _ le_rfl, Nat.sub_self, hf]
    exact fun h => hlead h.2

section
variable {g f : Block} (hg : NoSyncPair g) (hlead : byteAt f 0 = Config.lead1)
include hg hlead

/-- The loop on a beginning of garbage and a frame drops what it can of the garbage. -/
theorem drains_prefix_of_drop_garbage {buf r : Block} {fs : List Frame} {j : Nat} (hbuf : buf <+: g ++ f)
    (hj : j ≤ g.length) (hlong : ∀ i < j, Config.minScan + i ≤ buf.length) (hd : Drains (buf.drop j) fs r) :
    Drains buf fs r := by
  have hscan := cutValues.three_le_minScan
  obtain ⟨tail, htail⟩ := hbuf
  refine drains_of_drop_garbage (by decide) (fun i hi => ⟨hlong i hi, ?_⟩) hd
  have hi' := hlong i hi
  rw [← byteAt_append_left tail (i := i) (by omega), ← byteAt_append_left tail (i := i + 1) (by omega), htail]
  exact noSyncPair_append_frame (by decide) hg hlead (by omega)

/-- Up to six bytes of the frame, the loop drops all but the last six bytes of the stream. -/
theorem drains_take_garbage {k : Nat} (hk : k ≤ g.length + (Config.minScan - 1)) (hkf : k ≤ (g ++ f).length) :
    Drains ((g ++ f).take k) [] (((g ++ f).take k).drop (k - (Config.minScan - 1))) := by
  have hscan := loopValues.minScan
  have hlen : ((g ++ f).take k).length = k := List.length_take_of_le hkf
  refine drains_prefix_of_drop_garbage hg hlead (List.take_prefix k _) (by omega) (fun i hi => by omega) (.short ?_)
  rw [List.length_drop, hlen]
  omega

/-- In front of six bytes or more of the frame, the garbage goes whole. -/
theorem drains_garbage_append {x r : Block} {fs : List Frame} (hx : x <+: f) (hlong : Config.minScan ≤ x.length + 1)
    (hd : Drains x fs r) : Drains (g ++ x) fs r := by
  refine drains_prefix_of_drop_garbage hg hlead ((List.prefix_append_right_inj g).mpr hx) le_rfl (fun i hi => ?_) ?_
  · rw [List.length_append]
    omega
  · rwa [List.drop_left]

end

/-- Settles O42: the loop on every beginning of the stream drops the garbage in front of the last `MIN_SCAN - 1` bytes,
or of the frame. -/
theorem garbageIsDroppedByteByByte : Obligations.GarbageIsDroppedByteByByte := by
  unfold Obligations.GarbageIsDroppedByteByByte
  have hone : Config.discardHdrMiss = 1 := rfl
  refine ⟨hone, by decide, fun s g f hs hg hf hlong => ?_⟩
  have ⟨_, hlen, hlead, _⟩ := hf
  rw [← hlen] at hlong
  have hq := quiescent_of_empty hs
  have hall : (g ++ f).length = g.length + f.length := List.length_append
  refine ⟨fun k hk => ?_, ?_⟩
  · have hkf : k ≤ (g ++ f).length := by omega
    have hsilent := drains_of_empty_append hs (drains_take_garbage hg hlead hk hkf)
    rw [execSeq_feeds_of_silent hq hsilent, hone, Nat.one_mul, List.length_take_of_le hkf]
  · have hbefore : Drains (g ++ f).dropLast [] f.dropLast := by
      rw [List.dropLast_append_of_ne_nil hf.ne_nil]
      exact drains_garbage_append hg hlead (List.dropLast_prefix f) (by rw [List.length_dropLast]; omega)
        (drains_dropLast_of_validFrame hf)
    have hwhole : Drains (g ++ f) [frameOf f] [] :=
      drains_garbage_append hg hlead List.prefix_rfl (hlong.trans (Nat.le_succ _)) (drains_validFrame hf hlong)
    rw [execSeq_feeds_of_silent_before_last hq (by simp [hf.ne_nil]) (drains_of_empty_append hs hbefore)
      (drains_of_empty_append hs hwhole), hall, hlen]
    rfl

/-- Settles O45: what ENCODE returns is a valid frame whose record holds the operands, so the FEEDs of a valid frame
return them. -/
theorem encodeThenFeedRoundTrips : Obligations.EncodeThenFeedRoundTrips := by
  unfold Obligations.EncodeThenFeedRoundTrips
  intro s cmd p hs hp
  have hf := validFrame_encodeFrame hp cmd
  have hlen : (encodeFrame cmd p).length = p.length + Config.overhead := encodeFrame_length cmd p
  rw [← hlen]
  refine ⟨encodeFrame cmd p, frameOf (encodeFrame cmd p), exec_encode hp cmd s, byteAt_encodeFrame_command cmd p,
    frameOf_encodeFrame_payload hp cmd, fun hlong => ?_, fun hshort =>
      ⟨execSeq_feeds_of_short hs hshort, fun g => execSeq_feeds_short_validFrame hs hf hshort⟩⟩
  rw [execSeq_feeds_validFrame hs hf hlong, hlen, ← hs]
  rfl

end Sys2Proof.Machine

/-! The control requests (42_control R130, R131): RESET clears the buffer and does no more, and a reserved operation byte
decodes, whatever follows it, to a request of its own, which is refused. -/

namespace Sys2Proof.Machine

theorem setBuffer_bufClear_of_empty {s : State} (hs : s.rxBuf = []) : setBuffer bufClear s = s :=
  congrArg (setBuffer · s) hs.symm

/-- Settles O2: the first RESET leaves an empty buffer, and clearing an empty buffer changes nothing. -/
theorem resetEmptiesTheBuffer : Obligations.ResetEmptiesTheBuffer := by
  unfold Obligations.ResetEmptiesTheBuffer
  refine ⟨rfl, fun s => ⟨setBuffer bufClear s, exec_reset s, rfl, ?_, setBuffer_bufClear_of_empty⟩⟩
  rw [exec_reset, setBuffer_bufClear_of_empty (s := setBuffer bufClear s) rfl]

/-- Between operations a step runs the next request, its bytes taken (30_encoding R76). -/
theorem step_of_decode_ok {s : State} {i : Instr} {rest : List Byte} (hq : Quiescent s.rxBuf)
    (h : decode s.host.requests = .ok i rest) : step s = exec i { s with host.requests := rest } := by
  rw [step, fetch, if_pos hq, h]

theorem exec_reserved (s : State) : exec .reserved s = .refused (.reservedOp opReserved) := rfl

theorem exec_reservedHigh (op : Byte) (s : State) : exec (.reservedHigh op) s = .refused (.reservedOp op) := rfl

theorem decode_reserved (rest : List Byte) : decode (opReserved :: rest) = .ok .reserved rest := rfl

/-- An operation byte from `05` up is none of the five before it in the map (30_encoding R75). -/
theorem decode_reservedHigh {op : Byte} (hop : 0x05#8 ≤ op) (rest : List Byte) :
    decode (op :: rest) = .ok (.reservedHigh op) rest := by
  have hne : op ≠ opReset ∧ op ≠ opFeed ∧ op ≠ opEncode ∧ op ≠ opValidate ∧ op ≠ opReserved := by
    refine ⟨?_, ?_, ?_, ?_, ?_⟩ <;> rintro rfl <;> exact absurd hop (by decide)
  simp [decode, hne]

/-- Settles O3: a step on a reserved operation byte runs the RESERVED row it decodes to. -/
theorem reservedOperationBytesAreRefused : Obligations.ReservedOperationBytesAreRefused := by
  unfold Obligations.ReservedOperationBytesAreRefused
  refine fun s op hop => ⟨exec_reserved s, exec_reservedHigh op s, fun rest hq hreq => ?_⟩
  rcases hop with rfl | hop
  · rw [step_of_decode_ok hq (hreq ▸ decode_reserved rest), exec_reserved, opReserved]
  · rw [step_of_decode_ok hq (hreq ▸ decode_reservedHigh hop rest), exec_reservedHigh]

end Sys2Proof.Machine

/-! The reset state (70_reset_and_hazards R160, 10_state R32): power-on and RESET give the buffer the same value. -/

namespace Sys2Proof.Machine

/-- The buffer of power-on is the buffer RESET leaves (70_reset_and_hazards R160). -/
theorem reset_rxBuf_eq_bufClear : State.reset.rxBuf = bufClear := rfl

/-- Settles O1: RESET clears the buffer in every state, and the cleared buffer is that of power-on. -/
theorem resetStateIsEmptyBuffer : Obligations.ResetStateIsEmptyBuffer := by
  unfold Obligations.ResetStateIsEmptyBuffer
  rw [reset_rxBuf_eq_bufClear]
  exact ⟨rfl, exec_reset⟩

end Sys2Proof.Machine

/-! Requests as bytes (30_encoding R74 to R76): decoding and encoding are inverse on whole requests, and the decoder
tells a request that is cut short. -/

namespace Sys2Proof.Machine

/-- The decoder takes as many payload bytes as the length byte says. -/
theorem decodeEncode_append {ll : Byte} {p : List Byte} (hll : ll.toNat = p.length) (cmd : Byte) (rest : List Byte) :
    decodeEncode (cmd :: ll :: (p ++ rest)) = .ok (.encode cmd p) rest := by
  have hlong : ¬ (p ++ rest).length < ll.toNat := by simp [hll]
  simp only [decodeEncode, if_neg hlong, List.take_left' hll.symm, List.drop_left' hll.symm]

/-- The decoder takes five candidate bytes more than the length byte says. -/
theorem decodeValidate_append {ll : Byte} {c : List Byte} (hll : ll.toNat + Config.overhead = c.length)
    (rest : List Byte) : decodeValidate (ll :: (c ++ rest)) = .ok (.validate c) rest := by
  have hlong : ¬ (c ++ rest).length < ll.toNat + Config.overhead := by simp [hll]
  simp only [decodeValidate, if_neg hlong, List.take_left' hll.symm, List.drop_left' hll.symm]

/-- The length byte of a well-formed ENCODE request counts its payload. -/
theorem toNat_lengthByte_encode {cmd : Byte} {p : List Byte} (hw : (Instr.encode cmd p).wf = true) :
    (BitVec.ofNat 8 p.length).toNat = p.length :=
  byteAt_encodeFrame_length (of_decide_eq_true hw) cmd

/-- The length byte of a well-formed VALIDATE request counts its candidate's bytes from the sixth on. -/
theorem toNat_lengthByte_validate {c : List Byte} (hw : (Instr.validate c).wf = true) :
    (BitVec.ofNat 8 (c.length - Config.overhead)).toNat + Config.overhead = c.length := by
  obtain ⟨hlo, hhi⟩ : Config.overhead ≤ c.length ∧ c.length ≤ Config.maxFrame := by simpa [Instr.wf] using hw
  have hmax : Config.maxFrame - Config.overhead = 255 := rfl
  rw [BitVec.toNat_ofNat, Nat.mod_eq_of_lt (by omega), Nat.sub_add_cancel hlo]

theorem le_of_wf_reservedHigh {op : Byte} (hw : (Instr.reservedHigh op).wf = true) : 0x05#8 ≤ op :=
  of_decide_eq_true hw

/-- Settles O12, request by request: the operation byte selects the row, the length byte its operand. -/
theorem requestsDecodeBack : Obligations.RequestsDecodeBack := by
  unfold Obligations.RequestsDecodeBack
  intro i rest hw hreq
  cases i with
  | reset => rfl
  | feed b => rfl
  | encode cmd p => exact decodeEncode_append (toNat_lengthByte_encode hw) cmd rest
  | validate c => exact decodeValidate_append (toNat_lengthByte_validate hw) rest
  | reserved => exact decode_reserved rest
  | reservedHigh op => exact decode_reservedHigh (le_of_wf_reservedHigh hw) rest
  | feeds | short | hdrMiss | stall | emit | ckfail => cases hreq

theorem encode_of_decodeEncode {bs rest : List Byte} {i : Instr} (h : decodeEncode bs = .ok i rest) :
    i.isRequest = true ∧ encode i ++ rest = opEncode :: bs := by
  match bs with
  | [] | [_] => cases h
  | cc :: ll :: t =>
    simp only [decodeEncode] at h
    split at h
    · cases h
    · next hlong =>
      cases h
      simp [Instr.isRequest, encode, List.length_take_of_le (Nat.le_of_not_lt hlong)]

theorem encode_of_decodeValidate {bs rest : List Byte} {i : Instr} (h : decodeValidate bs = .ok i rest) :
    i.isRequest = true ∧ encode i ++ rest = opValidate :: bs := by
  match bs with
  | [] => cases h
  | ll :: t =>
    simp only [decodeValidate] at h
    split at h
    · cases h
    · next hlong =>
      cases h
      simp [Instr.isRequest, encode, List.length_take_of_le (Nat.le_of_not_lt hlong)]

/-- What the decoder reads is one request, and its bytes are those it took (30_encoding R76). -/
theorem encode_of_decode {bs rest : List Byte} {i : Instr} (h : decode bs = .ok i rest) :
    i.isRequest = true ∧ encode i ++ rest = bs := by
  match bs with
  | [] => cases h
  | op :: t =>
    simp only [decode] at h
    split_ifs at h with hreset hfeed hencode hvalidate hreserved
    · cases h; exact ⟨rfl, hreset ▸ rfl⟩
    · cases t <;> cases h; exact ⟨rfl, hfeed ▸ rfl⟩
    · exact hencode ▸ encode_of_decodeEncode h
    · exact hvalidate ▸ encode_of_decodeValidate h
    · cases h; exact ⟨rfl, hreserved ▸ rfl⟩
    · cases h; exact ⟨rfl, rfl⟩

/-- Settles O13: a decoded request is well-formed, and the decoder's cuts are undone by the encoder. -/
theorem decodedRequestsEncodeBack : Obligations.DecodedRequestsEncodeBack := by
  unfold Obligations.DecodedRequestsEncodeBack
  exact fun bs rest i h => ⟨wf_of_decode h, encode_of_decode h⟩

theorem decodeEncode_of_missing {cmd ll : Byte} {p part missing : List Byte} (hll : ll.toNat = p.length)
    (hcut : cmd :: ll :: p = part ++ missing) (hmissing : missing ≠ []) :
    decodeEncode part = .truncated opEncode (part.length + 1) := by
  match part with
  | [] | [_] => rfl
  | _ :: _ :: t =>
    obtain ⟨rfl, rfl, rfl⟩ : cmd = _ ∧ ll = _ ∧ p = t ++ missing := by simpa using hcut
    have hshort : t.length < ll.toNat := by simp [hll, List.length_pos_iff, hmissing]
    simp only [decodeEncode, if_pos hshort, List.length_cons]
    congr 1
    omega

theorem decodeValidate_of_missing {ll : Byte} {c part missing : List Byte}
    (hll : ll.toNat + Config.overhead = c.length) (hcut : ll :: c = part ++ missing) (hmissing : missing ≠ []) :
    decodeValidate part = .truncated opValidate (part.length + 1) := by
  match part with
  | [] => rfl
  | _ :: t =>
    obtain ⟨rfl, rfl⟩ : ll = _ ∧ c = t ++ missing := by simpa using hcut
    have hshort : t.length < ll.toNat + Config.overhead := by simp [hll, List.length_pos_iff, hmissing]
    simp only [decodeValidate, if_pos hshort, List.length_cons]
    congr 1
    omega

/-- A beginning of a well-formed request that lacks some of its bytes is told as such (30_encoding R76, log entry 8). -/
theorem decode_of_missing {i : Instr} {op : Byte} {part missing : List Byte} (hw : i.wf = true)
    (hreq : i.isRequest = true) (hcut : encode i = op :: part ++ missing) (hmissing : missing ≠ []) :
    decode (op :: part) = .truncated op (part.length + 1) := by
  cases i with
  | reset | reserved | reservedHigh => simp [encode, hmissing] at hcut
  | feed b =>
    obtain ⟨rfl, hb⟩ : opFeed = op ∧ [b] = part ++ missing := List.cons_eq_cons.mp hcut
    have hnil : part = [] := by
      rcases List.singleton_eq_append_iff.mp hb with ⟨h, -⟩ | ⟨-, h⟩
      · exact h
      · exact absurd h hmissing
    rw [hnil]
    rfl
  | encode cmd p =>
    obtain ⟨rfl, hp⟩ : opEncode = op ∧ _ = part ++ missing := List.cons_eq_cons.mp hcut
    exact decodeEncode_of_missing (toNat_lengthByte_encode hw) hp hmissing
  | validate c =>
    obtain ⟨rfl, hc⟩ : opValidate = op ∧ _ = part ++ missing := List.cons_eq_cons.mp hcut
    exact decodeValidate_of_missing (toNat_lengthByte_validate hw) hc hmissing
  | feeds | short | hdrMiss | stall | emit | ckfail => cases hreq

/-- Between operations a step refuses a request that ends inside its operands (60_exceptions R141). -/
theorem step_of_decode_truncated {s : State} {op : Byte} {present : Nat} (hq : Quiescent s.rxBuf)
    (h : decode s.host.requests = .truncated op present) : step s = .refused (.truncatedRequest op present) := by
  rw [step, fetch, if_pos hq, h]

/-- Settles O15: the decoder finds the pending request cut short. -/
theorem truncatedRequestIsRefused : Obligations.TruncatedRequestIsRefused := by
  unfold Obligations.TruncatedRequestIsRefused
  intro s i op part missing hw hreq hcut hmissing hq hpending
  exact step_of_decode_truncated hq (hpending ▸ decode_of_missing hw hreq hcut hmissing)

/-- Settles O14 by running the decoder and the choice on the strings. -/
theorem writtenOutRequestsDecode : Obligations.WrittenOutRequestsDecode := by
  unfold Obligations.WrittenOutRequestsDecode
  decide

/-- Settles O16: a quiescent buffer lets the fetch take the request. -/
theorem stepRunsTheDecodedRequest : Obligations.StepRunsTheDecodedRequest := by
  unfold Obligations.StepRunsTheDecodedRequest
  exact fun _ _ _ => step_of_decode_ok

end Sys2Proof.Machine

/-! What a step does with each kind of buffer (41_reassembler R107, 70_reset_and_hazards R163): inside a FEED it is the
chosen micro-step and requests are held; between operations, with nothing pending, it holds the state. -/

namespace Sys2Proof.Machine

theorem exists_pass_of_not_quiescent {buf : Block} (hq : ¬ Quiescent buf) :
    ∃ (buf' : Block) (f : Option Frame), rxStep buf = some (buf', f) := by
  obtain ⟨p, hp⟩ := Option.ne_none_iff_exists'.mp ((quiescent_iff_stops buf).not.mp hq)
  exact ⟨p.1, p.2, hp⟩

/-- Inside a FEED a step is the chosen micro-step. -/
theorem step_of_not_quiescent {s : State} (hq : ¬ Quiescent s.rxBuf) :
    step s = exec (selectStep s.rxBuf).instr s := by
  rw [step, fetch, if_neg hq]
  rfl

/-- Settles O17: inside a FEED a step is a pass of the loop, which reads the buffer alone. -/
theorem stepRunsTheChosenMicroStep : Obligations.StepRunsTheChosenMicroStep := by
  unfold Obligations.StepRunsTheChosenMicroStep
  intro s hq
  refine ⟨step_of_not_quiescent hq, fun t reqs ht => ?_⟩
  obtain ⟨buf, f, hpass⟩ := exists_pass_of_not_quiescent hq
  rw [step_of_rxStep hpass] at ht
  cases ht
  exact step_of_rxStep (s := { s with host.requests := reqs }) hpass

/-- On a quiescent buffer the chosen micro-step is SHORT or STALL. -/
theorem exec_chosen_of_quiescent {s : State} (hq : Quiescent s.rxBuf) : exec (selectStep s.rxBuf).instr s = .next s :=
  exec_chosen_of_stop ((quiescent_iff_stops s.rxBuf).mp hq)

/-- With no request pending a step runs the loop's stopping step (log entry 5). -/
theorem step_of_decode_empty {s : State} (hq : Quiescent s.rxBuf) (h : decode s.host.requests = .empty) :
    step s = .next s := by
  rw [step, fetch, if_pos hq, h]
  exact exec_chosen_of_quiescent hq

/-- Settles O18: SHORT or STALL runs, and neither changes the state. -/
theorem idleStepHoldsTheState : Obligations.IdleStepHoldsTheState := by
  unfold Obligations.IdleStepHoldsTheState
  exact fun s hq hnone => step_of_decode_empty hq (hnone ▸ rfl)

/-- The records of a pass's results are the record it puts out. -/
theorem returnedFrames_append_pass (rs : List Result) (f : Option Frame) :
    returnedFrames (rs ++ f.toList.map fun g => .frames [g]) = returnedFrames rs ++ f.toList := by
  cases f <;> simp [returnedFrames, resultFrames]

/-- Settles O27: a step inside a FEED is a pass that goes on. -/
theorem requestsAreHeldDuringAFeed : Obligations.RequestsAreHeldDuringAFeed := by
  unfold Obligations.RequestsAreHeldDuringAFeed
  have hv := loopValues
  refine ⟨hv.minScan, hv.discardHdrMiss, hv.discardCksFail, fun s hq => ?_⟩
  obtain ⟨buf, f, hpass⟩ := exists_pass_of_not_quiescent hq
  obtain ⟨hlong, hshorter⟩ := rxStep_shorter hv hpass
  obtain ⟨-, hdrop⟩ := rxStep_drops hpass
  exact ⟨_, step_of_rxStep hpass, rfl, hlong, hshorter, hdrop, f, returnedFrames_append_pass _ f⟩

/-- Settles O29: FEED computes an outcome of the source's loop, and that loop is micro-steps in turn. -/
theorem feedIsItsMicroSteps : Obligations.FeedIsItsMicroSteps := by
  unfold Obligations.FeedIsItsMicroSteps
  have hv := loopValues
  refine ⟨hv.minScan, hv.discardHdrMiss, hv.discardCksFail, fun s b => ?_⟩
  obtain ⟨going, last, t, hgoing, hlast, hrun, hr, hreq, hres, -⟩ :=
    execSeq_microSteps_of_drains hv (feedByte_spec hv b s.rxBuf) s.host
  exact ⟨going, last, _, t, hgoing, hlast, hr ▸ exec_feed b s, hrun, hreq, hres⟩

end Sys2Proof.Machine

/-! The micro-steps as instructions of their own (41_reassembler R101, R104, R105; log entries 4 and 6). -/

namespace Sys2Proof.Machine

/-- Settles O22: STALL stops the loop, and a length byte is at most 255. -/
theorem stallDiscardsNothing : Obligations.StallDiscardsNothing := by
  unfold Obligations.StallDiscardsNothing
  refine ⟨rfl, fun s n rest hs hlong hless => ?_⟩
  have hk : selectStep s.rxBuf = .stall := by
    rw [selectStep_eq_stall_iff]
    exact ⟨hlong, hs ▸ rfl, hs ▸ rfl, by rw [hs] at hless ⊢; exact hless⟩
  have hstop := (rxStep_eq_none_iff s.rxBuf).mpr (.inr hk)
  have hn : n.toNat < 256 := n.isLt
  have hvalues : Config.overhead = 5 ∧ Config.maxFrame = 255 + Config.overhead := ⟨rfl, rfl⟩
  exact ⟨chosenStep_of_chosen s hk, runLoop_of_stop hstop, by omega, by omega, by omega⟩

/-- Settles O24: the candidate is a valid frame at the front, so EMIT is the pass that puts out its record. -/
theorem emitAloneReturnsItsRecord : Obligations.EmitAloneReturnsItsRecord := by
  unfold Obligations.EmitAloneReturnsItsRecord
  intro s n cmd ck p rest hp hs hlong hck
  have hc := validFrame_candidate hp hck
  have hframe := frameOf_frameBytes (f := ⟨Config.lead1, Config.lead2, n, cmd, p, ck⟩) hp
  have hk : selectStep s.rxBuf = .emit := hs ▸ selectStep_validFrame_append hc (hs ▸ hlong)
  have hpass : rxStep s.rxBuf = _ := hs ▸ rxStep_validFrame_append hc (hs ▸ hlong)
  have hexec := exec_chosen_of_rxStep hpass
  rw [hk] at hexec
  rw [← hframe]
  exact hexec

theorem exec_of_unchosen {s : State} {k : RxStep} (hk : selectStep s.rxBuf ≠ k) :
    exec k.instr s = .refused (.stepNotChosen k) := by
  cases k <;> exact chosenStep_of_unchosen _ hk

/-- Settles O26: every micro-step tests the choice first. -/
theorem unchosenMicroStepIsRefused : Obligations.UnchosenMicroStepIsRefused := by
  unfold Obligations.UnchosenMicroStepIsRefused
  exact fun _ _ => exec_of_unchosen

end Sys2Proof.Machine

/-! The records FEEDs return (41_reassembler R105, R109): their bytes in the order of the stream, each only once its
bytes were fed, and the same from FEEDS as from its FEEDs in turn (30_encoding R79). -/

namespace Sys2Proof.Machine

/-- A record comes out with exactly the bytes that leave the front of the buffer. -/
theorem rxStep_emitted_bytes {buf buf' : Block} {f : Frame} (h : rxStep buf = some (buf', some f)) :
    buf = f.bytes ++ buf' := by
  rcases rxStep_cases buf with ⟨-, e⟩ | ⟨-, e⟩ | ⟨hk, e⟩ | ⟨-, e⟩ <;> rw [e] at h <;> cases h
  obtain ⟨-, hlen, -⟩ := validFrame_of_emit hk
  rw [frameOf_bytes hlen, slice_zero, List.take_append_drop]

theorem rxStep_suffix {buf buf' : Block} {f : Option Frame} (h : rxStep buf = some (buf', f)) : buf' <:+ buf := by
  obtain ⟨-, k, rfl, -⟩ := rxStep_drops h
  exact List.drop_suffix k buf

/-- The loop keeps the order of the bytes: those of its records, in turn, and then those it leaves. -/
theorem drains_sublist {buf r : Block} {fs : List Frame} (hd : Drains buf fs r) :
    (fs.flatMap Frame.bytes ++ r).Sublist buf := by
  induction hd using Drains.rxStep_induction with
  | stop buf h => exact List.Sublist.refl buf
  | pass buf buf' r f fs h hd ih =>
    cases f with
    | none => exact ih.trans (rxStep_suffix h).sublist
    | some f =>
      rw [rxStep_emitted_bytes h]
      simpa using ih

/-- A record has at least the five bytes around its payload. -/
theorem overhead_mul_length_le (fs : List Frame) :
    Config.overhead * fs.length ≤ (fs.flatMap Frame.bytes).length := by
  induction fs with
  | nil => exact Nat.zero_le _
  | cons f fs ih =>
    have hf : Config.overhead ≤ f.bytes.length := by simp [Frame.bytes, Config.overhead]
    rw [List.flatMap_cons, List.length_append, List.length_cons, Nat.mul_succ]
    omega

/-- Settles O33: the records' bytes and the bytes left stand in order in at most `RX_CAP` bytes, and a record has at
least five. -/
theorem feedListIsInStreamOrder : Obligations.FeedListIsInStreamOrder := by
  unfold Obligations.FeedListIsInStreamOrder
  have hscan : Config.minScan ≤ Config.rxCap := by decide
  refine ⟨hscan, fun s b hq => ?_⟩
  have hsub := drains_sublist (feedByte_spec loopValues b s.rxBuf)
  refine ⟨_, _, exec_feed b s, ?_, hsub⟩
  have hlen := hsub.length_le
  have hlt := quiescent_length_lt hscan hq
  have hfive : 5 * (feedByte b s.rxBuf).1.length ≤ _ := overhead_mul_length_le (feedByte b s.rxBuf).1
  have hcap : Config.rxCap = 260 := rfl
  simp only [List.length_append, List.length_singleton] at hlen
  omega

/-- The bytes of a record the loop puts out stand together in the buffer. -/
theorem drains_infix {buf r : Block} {fs : List Frame} (hd : Drains buf fs r) : ∀ f ∈ fs, f.bytes <:+: buf := by
  induction hd using Drains.rxStep_induction with
  | stop buf h => simp
  | pass buf buf' r f fs h hd ih =>
    intro g hg
    rcases List.mem_append.mp hg with hg | hg
    · obtain rfl : f = some g := Option.mem_toList.mp hg
      exact rxStep_emitted_bytes h ▸ (List.prefix_append _ _).isInfix
    · exact (ih g hg).trans (rxStep_suffix h).isInfix

/-- The bytes of a record that FEEDs in turn return stand together in the buffer and the fed bytes. -/
theorem feedBytes_infix (bs : List Byte) (buf : Block) :
    ∀ f ∈ (feedBytes bs buf).1.flatten, f.bytes <:+: buf ++ bs := by
  induction bs generalizing buf with
  | nil => simp [feedBytes]
  | cons b bs ih =>
    intro f hf
    have hcons : buf ++ b :: bs = buf ++ [b] ++ bs := by simp
    rw [feedBytes_cons, List.flatten_cons, List.mem_append] at hf
    rw [hcons]
    rcases hf with hf | hf
    · exact (drains_infix (feedByte_spec loopValues b buf) f hf).trans (List.prefix_append _ _).isInfix
    · exact (ih _ f hf).trans (List.suffix_append_self_iff.mpr (feedByte_suffix b buf)).isInfix

/-- What the first FEEDs return does not depend on those after them. -/
theorem take_feedBytes (k : Nat) (bs : List Byte) (buf : Block) :
    (feedBytes bs buf).1.take k = (feedBytes (bs.take k) buf).1 := by
  induction bs generalizing k buf with
  | nil => simp [feedBytes]
  | cons b bs ih =>
    cases k with
    | zero => rfl
    | succ k => simp [feedBytes_cons, ih]

/-- Settles O35: the first `k` lists are those of the first `k` FEEDs alone. -/
theorem noFrameIsReturnedEarly : Obligations.NoFrameIsReturnedEarly := by
  unfold Obligations.NoFrameIsReturnedEarly
  refine fun s bs => ⟨_, _, execSeq_feeds bs s, fun k f hf => ?_⟩
  rw [take_feedBytes] at hf
  exact feedBytes_infix _ _ f hf

theorem encodeFeeds_eq_flatMap (bs : List Byte) : encodeFeeds bs = bs.flatMap fun b => encode (.feed b) := by
  induction bs with
  | nil => rfl
  | cons b bs ih => rw [encodeFeeds, ih]; rfl

theorem exec_feeds_nil (s : State) : exec (.feeds []) s = .next s := rfl

/-- Settles O37: FEEDS and the FEEDs in turn both run `feedBytes`. -/
theorem feedsStandsForFeedsInTurn : Obligations.FeedsStandsForFeedsInTurn := by
  unfold Obligations.FeedsStandsForFeedsInTurn
  refine ⟨exec_feeds_nil, fun s bs hne => ⟨encodeFeeds_eq_flatMap bs, ?_⟩⟩
  obtain ⟨b, bs, rfl⟩ := List.exists_cons_of_ne_nil hne
  exact ⟨_, _, feedBytes_length _ s.rxBuf, execSeq_feeds _ s, exec_feeds b bs s⟩

end Sys2Proof.Machine

/-! Streams in front of which the loop waits or rescans (41_reassembler R104, R106, R119). -/

namespace Sys2Proof.Machine

/-- A complete candidate with a wrong checksum loses its lead bytes, whatever stands behind it. -/
theorem drains_failedCandidate_append {c x r : Block} {fs : List Frame}
    (hlen : c.length = (byteAt c 2).toNat + Config.overhead) (hlead1 : byteAt c 0 = Config.lead1)
    (hlead2 : byteAt c 1 = Config.lead2) (hcks : cks (slice c 0 (c.length - 1)) ≠ byteAt c (c.length - 1))
    (hlong : Config.minScan ≤ (c ++ x).length) (hd : Drains (c.drop Config.discardCksFail ++ x) fs r) :
    Drains (c ++ x) fs r := by
  have hover : Config.overhead = 5 := rfl
  have hdiscard : Config.discardCksFail ≤ Config.overhead := by decide
  have hbyte {i : Nat} (hi : i < c.length) : byteAt (c ++ x) i = byteAt c i := byteAt_append_left x hi
  rw [show c.length - 1 = (byteAt c 2).toNat + 4 by omega] at hcks
  refine .ckfail (n := (byteAt c 2).toNat) hlong ?_ ?_ ?_ ?_ ?_ ?_
  · rw [hbyte (by omega), hlead1]
  · rw [hbyte (by omega), hlead2]
  · rw [hbyte (by omega)]
  · rw [List.length_append]; omega
  · rwa [slice_append_left _ (by omega), hbyte (by omega)]
  · rwa [List.drop_append_of_le_length (by omega)]

/-- Settles O43: CKFAIL leaves garbage without a sync pair in front of the frame, on the whole stream as on the stream
without its last byte. -/
theorem frameAfterAFailedCandidateIsFound : Obligations.FrameAfterAFailedCandidateIsFound := by
  unfold Obligations.FrameAfterAFailedCandidateIsFound
  refine ⟨rfl, rfl, by decide, fun s c f hs hlen hlead1 hlead2 hcks hpair hf hlong => ?_⟩
  have ⟨_, hflen, hflead, _⟩ := hf
  rw [← hflen] at hlong
  have hover : 1 ≤ Config.overhead := by decide
  have hrescan {x r : Block} {fs : List Frame} (hx : x <+: f) (hxlong : Config.minScan ≤ x.length + 1)
      (hd : Drains x fs r) : Drains (c ++ x) fs r :=
    drains_failedCandidate_append hlen hlead1 hlead2 hcks
      (by rw [List.length_append]; omega)
      (drains_garbage_append hpair hflead hx hxlong hd)
  have hbefore : Drains (c ++ f).dropLast [] f.dropLast := by
    rw [List.dropLast_append_of_ne_nil hf.ne_nil]
    exact hrescan (List.dropLast_prefix f) (by rw [List.length_dropLast]; omega) (drains_dropLast_of_validFrame hf)
  have hwhole : Drains (c ++ f) [frameOf f] [] :=
    hrescan List.prefix_rfl (hlong.trans (Nat.le_succ _)) (drains_validFrame hf hlong)
  rw [execSeq_feeds_of_silent_before_last (quiescent_of_empty hs) (by simp [hf.ne_nil])
    (drains_of_empty_append hs hbefore) (drains_of_empty_append hs hwhole), List.length_append, hflen]
  rfl

/-- More bytes behind an incomplete candidate leave it incomplete until they complete it. -/
theorem quiescent_append_of_incomplete {buf bs : Block} (hscan : 3 ≤ Config.minScan)
    (hlong : Config.minScan ≤ buf.length) (hlead1 : byteAt buf 0 = Config.lead1)
    (hlead2 : byteAt buf 1 = Config.lead2)
    (hless : buf.length + bs.length < (byteAt buf 2).toNat + Config.overhead) : Quiescent (buf ++ bs) := by
  have hbyte {i : Nat} (hi : i < 3) : byteAt (buf ++ bs) i = byteAt buf i := byteAt_append_left bs (by omega)
  refine .inr ⟨(hbyte (by decide)).trans hlead1, (hbyte (by decide)).trans hlead2, ?_⟩
  rwa [hbyte (by decide), List.length_append]

/-- Settles O44: the buffer is stalled before the FEEDs and with all their bytes behind it. -/
theorem stallHoldsEverythingBehindIt : Obligations.StallHoldsEverythingBehindIt := by
  unfold Obligations.StallHoldsEverythingBehindIt
  have hscan := cutValues.three_le_minScan
  refine ⟨hscan, fun s bs hlong hlead1 hlead2 hless => ⟨?_, ?_⟩⟩
  · have hq : Quiescent s.rxBuf := .inr ⟨hlead1, hlead2, by omega⟩
    exact execSeq_feeds_of_silent hq
      (drains_of_quiescent (quiescent_append_of_incomplete hscan hlong hlead1 hlead2 hless))
  · have hn : (byteAt s.rxBuf 2).toNat < 256 := (byteAt s.rxBuf 2).isLt
    have hmax : Config.maxFrame = 255 + Config.overhead := rfl
    omega

end Sys2Proof.Machine

/-! Reference data of the payloads (30_encoding R68 to R72): the fields at their offsets, and the frame of a RuleDown
response. -/

namespace Sys2Proof.Machine

/-- The two bytes of a 16-bit field, the least significant first (20_memory R44). -/
theorem le16_value (v : BitVec 16) : (v.extractLsb' 0 8).toNat + 256 * (v.extractLsb' 8 8).toNat = v.toNat := by
  have hv := v.isLt
  simp only [BitVec.extractLsb'_toNat, Nat.shiftRight_eq_div_pow]
  omega

/-- The four bytes of a 32-bit field, the least significant first. -/
theorem le32_value (v : BitVec 32) : (v.extractLsb' 0 8).toNat + 256 * ((v.extractLsb' 8 8).toNat +
    256 * ((v.extractLsb' 16 8).toNat + 256 * (v.extractLsb' 24 8).toNat)) = v.toNat := by
  have hv := v.isLt
  simp only [BitVec.extractLsb'_toNat, Nat.shiftRight_eq_div_pow]
  omega

/-- Settles O52: the layouts list their fields in order, a 16-bit or 32-bit one as its bytes. -/
theorem payloadFieldsStandAtTheirOffsets : Obligations.PayloadFieldsStandAtTheirOffsets := by
  unfold Obligations.PayloadFieldsStandAtTheirOffsets
  refine ⟨fun ht ver cn mn cb => ?_, fun ci ch ma d => ?_, fun ci ch res ma d => ?_, fun st => ?_,
    fun st ad cmdBuf hlen => ?_⟩
  · exact ⟨_, rfl, rfl, rfl, rfl, rfl, rfl, le16_value cb⟩
  · exact ⟨_, rfl, rfl, rfl, rfl, le16_value ma, le32_value d⟩
  · exact ⟨_, rfl, rfl, rfl, rfl, rfl, le16_value ma, le32_value d⟩
  · exact ⟨_, rfl, rfl, rfl⟩
  · have hcount : (BitVec.ofNat 8 cmdBuf.length).toNat = cmdBuf.length := byteAt_encodeFrame_length hlen 0#8
    exact ⟨_, rfl, Nat.add_comm _ 4, rfl, le16_value ad, hcount, rfl⟩

/-- Settles O53: the frame has one payload byte, so it is one byte short of `MIN_SCAN` and comes back with the next. -/
theorem loneRuleDownResponseIsHeld : Obligations.LoneRuleDownResponseIsHeld := by
  unfold Obligations.LoneRuleDownResponseIsHeld
  intro s tag status next hs
  have hpay : (ruleDownResponse status).length ≤ Config.maxPayload := Nat.le_add_left 1 254
  have hf := validFrame_encodeFrame hpay tag
  have hlen : (encodeFrame tag (ruleDownResponse status)).length = Config.minScan - 1 := rfl
  have hshort : (encodeFrame tag (ruleDownResponse status)).length < Config.minScan :=
    hlen.trans_lt (by decide)
  exact ⟨_, exec_encode hpay tag s, hlen, rfl, rfl, execSeq_feeds_of_short hs hshort,
    execSeq_feeds_short_validFrame hs hf hshort rfl⟩

end Sys2Proof.Machine

/-! What the checksum of a frame finds (40_codec section 4): it moves with every changed byte and not with an
exchange. -/

namespace Sys2Proof.Machine

/-- A byte put in the place of another moves the checksum by their difference. -/
theorem cks_set_add {s : List Byte} {i : Nat} (hi : i < s.length) (b : Byte) :
    cks (s.set i b) + byteAt s i = cks s + b := by
  induction s generalizing i with
  | nil => cases hi
  | cons a s ih =>
    cases i with
    | zero =>
      rw [List.set_cons_zero, byteAt_cons_zero, cks_cons, cks_cons]
      ac_rfl
    | succ i =>
      rw [List.set_cons_succ, byteAt_cons_succ, cks_cons, cks_cons, BitVec.add_assoc, BitVec.add_assoc,
        ih (Nat.lt_of_succ_lt_succ hi)]

theorem cks_set_ne {s : List Byte} {i : Nat} (hi : i < s.length) {b : Byte} (hb : b ≠ byteAt s i) :
    cks (s.set i b) ≠ cks s := by
  intro heq
  have hmove := cks_set_add hi b
  rw [heq] at hmove
  exact hb (add_left_cancel hmove).symm

theorem byteAt_set_same {s : List Byte} {i : Nat} (hi : i < s.length) (b : Byte) : byteAt (s.set i b) i = b := by
  simp [byteAt, hi]

theorem byteAt_set_other (s : List Byte) {i j : Nat} (hij : i ≠ j) (b : Byte) :
    byteAt (s.set i b) j = byteAt s j := by
  simp [byteAt, List.getD_eq_getElem?_getD, List.getElem?_set_ne hij]

theorem cks_exchange {s : List Byte} {i j : Nat} (hi : i < s.length) (hj : j < s.length) :
    cks ((s.set i (byteAt s j)).set j (byteAt s i)) = cks s := by
  have hkept : byteAt (s.set i (byteAt s j)) j = byteAt s j := by
    by_cases hij : i = j
    · subst hij
      exact byteAt_set_same hi _
    · exact byteAt_set_other s hij _
  have hsecond := cks_set_add (s := s.set i (byteAt s j)) (by simpa using hj) (byteAt s i)
  rw [hkept, cks_set_add hi] at hsecond
  exact add_right_cancel hsecond

theorem candidateOk_concat_iff (body : List Byte) (last : Byte) :
    candidateOk (body ++ [last]) = true ↔ cks body = last := by
  rw [candidateOk_concat, decide_eq_true_iff, ← cks_toNat, BitVec.toNat_inj]

/-- A valid frame is its bytes before the checksum and their checksum. -/
theorem ValidFrame.eq_concat_cks {c : List Byte} (hc : ValidFrame c) : ∃ body, c = body ++ [cks body] := by
  refine ⟨c.dropLast, ?_⟩
  have hlast := List.dropLast_append_getLast hc.ne_nil
  have hok := candidateOk_of_validFrame hc
  rw [← hlast, candidateOk_concat_iff] at hok
  rw [hok, hlast]

/-- VALIDATE of as many bytes as a valid frame has runs in every state. -/
theorem exec_validate_of_validFrame_length {c c' : List Byte} (hc : ValidFrame c) (hlen : c'.length = c.length)
    (s : State) : exec (.validate c') s = .next (returnResult (.validated (candidateOk c') (candidateCks c')) s) := by
  obtain ⟨hmin, hcount, -⟩ := hc
  have hn : (byteAt c 2).toNat ≤ Config.maxPayload := Nat.le_of_lt_succ (byteAt c 2).isLt
  exact exec_validate (hlen ▸ hmin) (by rw [hlen, hcount]; exact Nat.add_le_add_right hn _) s

/-- VALIDATE finds one changed byte: either the sum moves or the byte it is compared with does. -/
theorem candidateOk_set {c : List Byte} (hc : ValidFrame c) {i : Nat} {b : Byte} (hi : i < c.length)
    (hb : b ≠ byteAt c i) : candidateOk (c.set i b) = false := by
  obtain ⟨body, rfl⟩ := hc.eq_concat_cks
  rw [Bool.eq_false_iff, Ne]
  by_cases hbody : i < body.length
  · rw [byteAt_append_left _ hbody] at hb
    rw [List.set_append_left _ _ hbody, candidateOk_concat_iff]
    exact cks_set_ne hbody hb
  · obtain rfl : i = body.length := by simp at hi; omega
    rw [byteAt_append_right _ le_rfl, Nat.sub_self, byteAt_cons_zero] at hb
    rw [List.set_append_right _ _ le_rfl, Nat.sub_self, List.set_cons_zero, candidateOk_concat_iff]
    exact hb.symm

/-- VALIDATE misses an exchange of two bytes before the checksum, which a sum cannot tell. -/
theorem candidateOk_exchange {c : List Byte} (hc : ValidFrame c) {i j : Nat} (hi : i < c.length - 1)
    (hj : j < c.length - 1) : candidateOk ((c.set i (byteAt c j)).set j (byteAt c i)) = true := by
  obtain ⟨body, rfl⟩ := hc.eq_concat_cks
  rw [List.length_append, List.length_singleton, Nat.add_sub_cancel] at hi hj
  rw [byteAt_append_left _ hi, byteAt_append_left _ hj, List.set_append_left _ _ hi,
    List.set_append_left _ _ (by simpa using hj), candidateOk_concat_iff]
  exact cks_exchange hi hj

/-- Settles O10: VALIDATE runs on the altered frame, and its bit is that of the sum. -/
theorem checksumFindsOneByteMissesExchange : Obligations.ChecksumFindsOneByteMissesExchange := by
  unfold Obligations.ChecksumFindsOneByteMissesExchange
  refine fun s c hc => ⟨fun i b hi hb => ⟨candidateCks (c.set i b), ?_⟩, fun i j hi hj =>
    ⟨candidateCks ((c.set i (byteAt c j)).set j (byteAt c i)), ?_⟩⟩
  · rw [exec_validate_of_validFrame_length hc List.length_set, candidateOk_set hc hi hb]
    rfl
  · rw [exec_validate_of_validFrame_length hc (by simp), candidateOk_exchange hc hi hj]
    rfl

end Sys2Proof.Machine

/-! What an instruction can do (10_state section 1): either it is refused whatever the host's side is, or the buffer it
leaves and the one result it may add are fixed by the buffer it finds. The frame of every instruction, its independence
of the host and the invariant are read off this one inversion. -/

namespace Sys2Proof.Machine

/-- The instructions that return nothing (20_memory section 3). -/
def Silent (i : Instr) : Prop := i = .reset ∨ i = .hdrMiss ∨ i = .ckfail ∨ i = .short ∨ i = .stall

/-- The instruction `i` on the buffer `buf` leaves the buffer `r` and adds the result `out`, if any, whatever the host's
side is. The buffer is the one found, a quiescent one, or what a pass of the loop leaves; every record in the result
stands for a valid frame; and a silent instruction adds no result. -/
structure Effect (i : Instr) (buf r : Block) (out : Option Result) : Prop where
  runs : ∀ h : HostSide, exec i ⟨buf, h⟩ = .next ⟨r, { h with results := h.results ++ out.toList }⟩
  buffer : r = buf ∨ Quiescent r ∨ ∃ f, rxStep buf = some (r, f)
  good : ∀ f ∈ returnedFrames out.toList, GoodFrame f
  silent : Silent i → out = none

/-- An instruction has an effect on a buffer or is refused there. -/
def EffectOrRefusal (i : Instr) (buf : Block) : Prop :=
  (∃ (r : Block) (out : Option Result), Effect i buf r out) ∨
    ∃ why : Refusal, ∀ h : HostSide, exec i ⟨buf, h⟩ = .refused why

theorem drains_feedBytes_of_cons (hv : LoopValues) (hc : CutValues) (b : Byte) (bs : List Byte) (buf : Block) :
    Drains (buf ++ b :: bs) (feedBytes (b :: bs) buf).1.flatten (feedBytes (b :: bs) buf).2 := by
  have hrest := drains_feedBytes hv hc (feedByte_quiescent hv b buf) bs
  simpa [feedBytes_cons] using drains_append hc (feedByte_spec hv b buf) hrest

/-- An instruction that returns what the source's loop puts out, and leaves what it leaves. -/
theorem effect_of_drains {i : Instr} {buf all r : Block} {fs : List Frame} (hd : Drains all fs r)
    (hruns : ∀ h : HostSide, exec i ⟨buf, h⟩ = .next ⟨r, { h with results := h.results ++ [.frames fs] }⟩)
    (hloud : ¬ Silent i) : Effect i buf r (some (.frames fs)) where
  runs := hruns
  buffer := .inr (.inl (drains_quiescent hd))
  good := by simpa [returnedFrames, resultFrames] using drains_goodFrames hd
  silent h := absurd h hloud

/-- An instruction that leaves the buffer and may add a result without records. -/
theorem effect_of_buffer_kept {i : Instr} {buf : Block} {out : Option Result}
    (hruns : ∀ h : HostSide, exec i ⟨buf, h⟩ = .next ⟨buf, { h with results := h.results ++ out.toList }⟩)
    (hnone : returnedFrames out.toList = [])
    (hsilent : Silent i → out = none) :
    Effect i buf buf out where
  runs := hruns
  buffer := .inl rfl
  good := by simp [hnone]
  silent := hsilent

theorem selectStep_of_record {buf buf' : Block} {f : Frame} (h : rxStep buf = some (buf', some f)) :
    selectStep buf = .emit := by
  rcases rxStep_cases buf with ⟨-, e⟩ | ⟨-, e⟩ | ⟨hk, -⟩ | ⟨-, e⟩
  · simp [e] at h
  · simp [e] at h
  · exact hk
  · simp [e] at h

/-- The chosen micro-step is a pass of the loop or leaves everything. -/
theorem effect_of_chosen (buf : Block) : ∃ (r : Block) (out : Option Result),
    Effect (selectStep buf).instr buf r out := by
  cases hpass : rxStep buf with
  | none =>
    refine ⟨buf, none, effect_of_buffer_kept (fun h => ?_) rfl fun _ => rfl⟩
    simpa using exec_chosen_of_stop (s := ⟨buf, h⟩) hpass
  | some p =>
    obtain ⟨r, f⟩ := p
    refine ⟨r, f.map fun g => .frames [g], fun h => ?_, .inr (.inr ⟨f, hpass⟩), ?_, fun hi => ?_⟩
    · cases f <;> exact exec_chosen_of_rxStep (s := ⟨buf, h⟩) hpass
    · cases f with
      | none => simp [returnedFrames]
      | some g => simpa [returnedFrames, resultFrames] using goodFrame_of_rxStep hpass
    · cases f with
      | none => rfl
      | some g => simp [selectStep_of_record hpass, RxStep.instr, Silent] at hi

theorem microStep_effectOrRefusal (k : RxStep) (buf : Block) : EffectOrRefusal k.instr buf := by
  by_cases hk : selectStep buf = k
  · exact .inl (hk ▸ effect_of_chosen buf)
  · exact .inr ⟨_, fun h => exec_of_unchosen (s := ⟨buf, h⟩) hk⟩

/-- The inversion, instruction by instruction. -/
theorem effectOrRefusal (i : Instr) (buf : Block) : EffectOrRefusal i buf := by
  have hv := loopValues
  cases i with
  | reset =>
    refine .inl ⟨bufClear, none, fun h => ?_, .inr (.inl (.inl hv.minScan)), by simp [returnedFrames], fun _ => rfl⟩
    simp [exec_reset, setBuffer]
  | feed b =>
    exact .inl ⟨_, _, effect_of_drains (feedByte_spec hv b buf) (fun h => exec_feed b ⟨buf, h⟩) (by simp [Silent])⟩
  | encode cmd p =>
    by_cases hp : p.length ≤ Config.maxPayload
    · exact .inl ⟨buf, _, effect_of_buffer_kept (out := some _) (fun h => exec_encode hp cmd ⟨buf, h⟩) rfl
        (by simp [Silent])⟩
    · exact .inr ⟨_, fun h => exec_encode_tooLong (Nat.lt_of_not_le hp) cmd ⟨buf, h⟩⟩
  | validate c =>
    by_cases hc : Config.overhead ≤ c.length ∧ c.length ≤ Config.maxFrame
    · obtain ⟨hlo, hhi⟩ := hc
      exact .inl ⟨buf, _, effect_of_buffer_kept (out := some _) (fun h => exec_validate hlo hhi ⟨buf, h⟩) rfl
        (by simp [Silent])⟩
    · exact .inr ⟨_, fun h => exec_validate_badLength hc ⟨buf, h⟩⟩
  | reserved => exact .inr ⟨_, fun h => exec_reserved ⟨buf, h⟩⟩
  | reservedHigh op => exact .inr ⟨_, fun h => exec_reservedHigh op ⟨buf, h⟩⟩
  | feeds bs =>
    cases bs with
    | nil =>
      refine .inl ⟨buf, none, effect_of_buffer_kept (fun h => ?_) rfl fun _ => rfl⟩
      simpa using exec_feeds_nil ⟨buf, h⟩
    | cons b bs =>
      exact .inl ⟨_, _, effect_of_drains (drains_feedBytes_of_cons hv cutValues b bs buf)
        (fun h => exec_feeds b bs ⟨buf, h⟩) (by simp [Silent])⟩
  | short => exact microStep_effectOrRefusal .short buf
  | hdrMiss => exact microStep_effectOrRefusal .hdrMiss buf
  | stall => exact microStep_effectOrRefusal .stall buf
  | emit => exact microStep_effectOrRefusal .emit buf
  | ckfail => exact microStep_effectOrRefusal .ckfail buf

/-- All an instruction can answer with a next state. -/
theorem effect_of_exec_next {i : Instr} {s t : State} (h : exec i s = .next t) : ∃ (r : Block) (out : Option Result),
    Effect i s.rxBuf r out ∧ t = ⟨r, { s.host with results := s.host.results ++ out.toList }⟩ := by
  rcases effectOrRefusal i s.rxBuf with ⟨r, out, he⟩ | ⟨why, hwhy⟩
  · exact ⟨r, out, he, Host.Outcome.next.inj (h.symm.trans (he.runs s.host))⟩
  · cases h.symm.trans (hwhy s.host)

/-- Settles O48: an effect and a refusal are stated for every host's side. -/
theorem onlyTheBufferIsState : Obligations.OnlyTheBufferIsState := by
  unfold Obligations.OnlyTheBufferIsState
  exact fun i buf => (effectOrRefusal i buf).imp_left fun ⟨r, out, he⟩ => ⟨r, out.toList, he.runs⟩

/-- Settles O47: the next state is the effect's. -/
theorem instructionFrame : Obligations.InstructionFrame := by
  unfold Obligations.InstructionFrame
  intro i s t h
  obtain ⟨r, out, he, rfl⟩ := effect_of_exec_next h
  exact ⟨rfl, out, rfl, he.silent⟩

/-- Every operation a host issues runs in every state. -/
theorem exec_next_of_hostIssued {i : Instr} (hw : i.wf = true) (hi : hostIssued i = true) (s : State) :
    ∃ t : State, exec i s = .next t := by
  cases i with
  | reset => exact ⟨_, exec_reset s⟩
  | feed b => exact ⟨_, exec_feed b s⟩
  | encode cmd p => exact ⟨_, exec_encode (of_decide_eq_true hw) cmd s⟩
  | validate c =>
    obtain ⟨v, hv⟩ := exec_encode_or_validate hw (.inr ⟨c, rfl⟩)
    exact ⟨_, hv s⟩
  | feeds bs =>
    cases bs with
    | nil => exact ⟨_, exec_feeds_nil s⟩
    | cons b bs => exact ⟨_, exec_feeds b bs s⟩
  | reserved | reservedHigh | short | hdrMiss | stall | emit | ckfail => cases hi

/-- A request is a host's operation or one of the two RESERVED rows. -/
theorem hostIssued_or_reserved {i : Instr} (hreq : i.isRequest = true) :
    hostIssued i = true ∨ i = .reserved ∨ ∃ op, i = .reservedHigh op := by
  cases i with
  | reset | feed | encode | validate => exact .inl rfl
  | reserved => exact .inr (.inl rfl)
  | reservedHigh op => exact .inr (.inr ⟨op, rfl⟩)
  | feeds | short | hdrMiss | stall | emit | ckfail => cases hreq

theorem exec_next_or_reservedOp {i : Instr} (hw : i.wf = true) (hreq : i.isRequest = true) (s : State) :
    (∃ t : State, exec i s = .next t) ∨ ∃ op : Byte, exec i s = .refused (.reservedOp op) := by
  rcases hostIssued_or_reserved hreq with hi | rfl | ⟨op, rfl⟩
  · exact .inl (exec_next_of_hostIssued hw hi s)
  · exact .inr ⟨_, exec_reserved s⟩
  · exact .inr ⟨_, exec_reservedHigh op s⟩

/-- Settles O46: a step runs a pass, the request that is decoded, or the stopping step; and the operations a host issues
run in every state. -/
theorem acceptedOperationsComplete : Obligations.AcceptedOperationsComplete := by
  unfold Obligations.AcceptedOperationsComplete
  have hinside {s : State} (hq : ¬ Quiescent s.rxBuf) : ∃ t : State, step s = .next t := by
    obtain ⟨buf, f, hpass⟩ := exists_pass_of_not_quiescent hq
    exact ⟨_, step_of_rxStep hpass⟩
  refine ⟨fun s hs => ?_, fun s => ?_, fun i s hw hi => ?_⟩
  · by_cases hq : Quiescent s.rxBuf
    · rcases hs with hs | hnone | ⟨i, rest, hdec, hi⟩
      · exact absurd hq hs
      · exact ⟨s, step_of_decode_empty hq (hnone ▸ rfl)⟩
      · exact step_of_decode_ok hq hdec ▸ exec_next_of_hostIssued (wf_of_decode hdec) hi _
    · exact hinside hq
  · by_cases hq : Quiescent s.rxBuf
    · cases hdec : decode s.host.requests with
      | empty => exact .inl ⟨s, step_of_decode_empty hq hdec⟩
      | ok i rest =>
        rw [step_of_decode_ok hq hdec]
        obtain ⟨hreq, -⟩ := encode_of_decode hdec
        exact (exec_next_or_reservedOp (wf_of_decode hdec) hreq _).imp_right .inl
      | truncated op present => exact .inr (.inr ⟨op, present, step_of_decode_truncated hq hdec⟩)
    · exact .inl (hinside hq)
  · obtain ⟨t, h⟩ := exec_next_of_hostIssued hw hi s
    obtain ⟨r, out, he, rfl⟩ := effect_of_exec_next h
    exact ⟨_, h, rfl, List.prefix_append _ _⟩

end Sys2Proof.Machine

/-! The invariant (41_reassembler R110, R111, R120): an instruction leaves the buffer it found, a quiescent one, or a
shorter one, and adds records of valid frames only; a step is an instruction. -/

namespace Sys2Proof.Machine

theorem returnedFrames_append (rs rs' : List Result) :
    returnedFrames (rs ++ rs') = returnedFrames rs ++ returnedFrames rs' := List.flatMap_append

/-- The host's pending requests are no part of the invariant. -/
theorem inv_with_requests {s : State} (hs : Inv s) (reqs : List Byte) : Inv { s with host.requests := reqs } :=
  ⟨hs.bounded, hs.returnedGood⟩

/-- No effect passes the capacity: a quiescent buffer is below it and a pass shortens the buffer. -/
theorem Effect.length_le {i : Instr} {buf r : Block} {out : Option Result} (he : Effect i buf r out)
    (hbuf : buf.length ≤ Config.rxCap) : r.length ≤ Config.rxCap := by
  rcases he.buffer with rfl | hr | ⟨f, hpass⟩
  · exact hbuf
  · exact (quiescent_length_lt (by decide) hr).le
  · exact (rxStep_shorter loopValues hpass).2.le.trans hbuf

/-- A quiescent buffer stays so: no pass of the loop goes on from it. -/
theorem Effect.quiescent {i : Instr} {buf r : Block} {out : Option Result} (he : Effect i buf r out)
    (hq : Quiescent buf) : Quiescent r := by
  rcases he.buffer with rfl | hr | ⟨f, hpass⟩
  · exact hq
  · exact hr
  · rw [quiescent_iff_stops, hpass] at hq
    cases hq

theorem exec_keeps_inv {i : Instr} {s t : State} (hs : Inv s) (h : exec i s = .next t) :
    Inv t ∧ (Quiescent s.rxBuf → Quiescent t.rxBuf) := by
  obtain ⟨r, out, he, rfl⟩ := effect_of_exec_next h
  refine ⟨⟨he.length_le hs.bounded, fun f hf => ?_⟩, he.quiescent⟩
  rcases List.mem_append.mp (returnedFrames_append _ _ ▸ hf) with hf | hf
  · exact hs.returnedGood f hf
  · exact he.good f hf

/-- A step that answers a next state is an instruction on the same buffer, with the requests its fetch left. -/
theorem exec_of_step_next {s t : State} (h : step s = .next t) :
    ∃ (i : Instr) (reqs : List Byte), exec i { s with host.requests := reqs } = .next t := by
  by_cases hq : Quiescent s.rxBuf
  · cases hdec : decode s.host.requests with
    | empty =>
      obtain rfl : s = t := Host.Outcome.next.inj ((step_of_decode_empty hq hdec).symm.trans h)
      exact ⟨_, s.host.requests, exec_chosen_of_quiescent hq⟩
    | ok i rest => exact ⟨i, rest, step_of_decode_ok hq hdec ▸ h⟩
    | truncated op present => cases (step_of_decode_truncated hq hdec).symm.trans h
  · exact ⟨_, s.host.requests, step_of_not_quiescent hq ▸ h⟩

/-- Settles O50: every step is an instruction, and every instruction keeps the invariant. -/
theorem invariantIsKept : Obligations.InvariantIsKept := by
  unfold Obligations.InvariantIsKept
  have hv := loopValues
  refine ⟨hv.minScan, hv.discardHdrMiss, hv.discardCksFail, by decide, fun s t hs h => ?_,
    fun _ _ _ => exec_keeps_inv⟩
  obtain ⟨i, reqs, hi⟩ := exec_of_step_next h
  exact exec_keeps_inv (s := { s with host.requests := reqs }) (inv_with_requests hs reqs) hi

/-- Settles O51: the reset buffer is empty and no result has come back. -/
theorem resetHasTheInvariant : Obligations.ResetHasTheInvariant := by
  unfold Obligations.ResetHasTheInvariant
  exact ⟨loopValues.minScan, ⟨Nat.zero_le _, fun _ hf => (List.not_mem_nil hf).elim⟩, .inl loopValues.minScan⟩

end Sys2Proof.Machine
